-- ==== Sys2Proof/Word.lean ====
section
/-! DEFINITION. The word types of yis-rs CORE (spec/00_scope.md R6, R9): bytes, nibbles, 64-bit words, register ids. -/

namespace Sys2Proof

/-- A byte is 8 bits (R9 section 5.1). -/
abbrev Byte := BitVec 8

/-- One half of a byte (R9 section 5.1). -/
abbrev Nibble := BitVec 4

/-- A word is 64 bits (R9 section 5.1): a register slot, an address, the program counter, an 8-byte field. -/
abbrev Word := BitVec 64

/-- A register id, 0 to 15 (R11). -/
abbrev RegId := BitVec 4

/-- The sentinel "no register" id, 15 (R11, R29). -/
def rNONE : RegId := 15

end Sys2Proof
end

