-- ==== Sys2Proof/Config.lean ====
section
/-! DEFINITION. What the spec leaves to the host or to the implementation: the construction parameters of R7 and the
open order of PushN (R37). The opcode family values `OPC_*` of R8, named constants too, stand at the head of
Sys2Proof/Decode.lean under the same namespace `Config`. -/

namespace Sys2Proof

/-- The two readings of `PUSH_N_ORDER` (R37). -/
inductive PushNOrder where
  /-- `PushN(bs)` equals `Push(bs[0]); …; Push(bs[N−1])`. -/
  | sequential
  /-- The bytes keep their order in memory: `bs[i]` lands at `M[sp_new + i]`. -/
  | block
deriving DecidableEq, Repr, Inhabited

/-- `PUSH_N_ORDER`, left open by R37 and D16: no value is chosen (notes/assumptions/12.md). -/
opaque Config.pushNOrder : PushNOrder

/-- What the host supplies when it constructs the machine (R7, R110). -/
structure Params where
  /-- `PROG`, whose length is `PROG_LEN`. -/
  prog : List Byte
  /-- `MEM_CAP`. -/
  memCap : Nat
  /-- `MEM_INIT`, the `MEM_CAP` bytes of the buffer, address 0 first. -/
  memInit : List Byte
  /-- `PC_INIT`, by default 0. -/
  pcInit : Word := 0
  /-- `REG_INIT`, by default all zero. -/
  regInit : Vector Word 16 := Vector.replicate 16 0
deriving DecidableEq, Repr

/-- The parameters `State.reset` is constructed from: the conventions that spec/95_test_vectors.md states for its
vectors (`MEM_CAP = 64`, `MEM_INIT` 64 zero bytes, all registers 0, `PC_INIT = 0`) with no program loaded.
DESIGN CHOICE, unsafe: R7 gives PROG, MEM_CAP and MEM_INIT no conventional value (notes/assumptions/1.md to 4.md). -/
def Config.resetParams : Params where
  prog := []
  memCap := 64
  memInit := List.replicate 64 0

end Sys2Proof
end

