-- ==== Sys2Proof/Machine/Bytes.lean ====
section
/-! DEFINITION. Bit fields, sign readings and the one byte order (little-endian) of the machine (R9 section 5.1, R31). -/

namespace Sys2Proof

/-- `b[7:4]` (R9). -/
def hiNibble (b : Byte) : Nibble := b.extractLsb' 4 4

/-- `b[3:0]` (R9). -/
def loNibble (b : Byte) : Nibble := b.extractLsb' 0 4

/-- `hi ‖ lo`: the byte with these two nibbles (R9). -/
def packByte (hi lo : Nibble) : Byte := hi ++ lo

/-- Little-endian assembly of a list of bytes, lowest address first: `b0 + b1·2^8 + b2·2^16 + …` (`LE8` of R9, R31). -/
def leNat : List Byte → Nat
  | [] => 0
  | b :: bs => b.toNat + 256 * leNat bs

/-- The `n` bytes of the value `v`, least significant first (`bytesLE8` of R9, R31). -/
def leBytes : Nat → Nat → List Byte
  | 0, _ => []
  | n + 1, v => BitVec.ofNat 8 v :: leBytes n (v / 256)

/-- `sext_64`: a 64-bit pattern read as two's complement (R9). -/
def sext64 (v : Word) : Int := v.toInt

/-- `bits_64`: the 64-bit two's complement pattern of a signed integer (R9). -/
def bits64 (i : Int) : Word := BitVec.ofInt 64 i

end Sys2Proof
end

