-- ==== Sys2Proof/Machine/Memory.lean ====
section
/-! DEFINITION. The byte store behind the memory/stack buffer `M` (R20, R30): a sparse list in one canonical form. -/

namespace Sys2Proof.Machine

/-- The bytes of `M` as (address, byte) pairs, addresses strictly rising, no entry equal to `unlistedByte`. Every
content of a buffer of any capacity has exactly one such list. -/
abbrev Memory := List Host.Cell

/-- What an address that is not listed reads as. DESIGN CHOICE: every `MEM_INIT` can be listed beside it, so it bounds
no machine; that `State.reset` lists nothing is unsafe (notes/assumptions/2.md). -/
abbrev unlistedByte : Byte := 0

/-- The canonical form: every address above `low` (if any), strictly rising, no entry equal to `unlistedByte`. -/
def Memory.wfAbove : Option Nat → Memory → Bool
  | _, [] => true
  | low, (a, b) :: m =>
    (match low with | none => true | some l => decide (l < a)) && decide (b ≠ unlistedByte)
      && Memory.wfAbove (some a) m

/-- The canonical form of a memory. -/
def Memory.wf (m : Memory) : Bool := Memory.wfAbove none m

/-- `M[a]` (R9 section 5.2). -/
def Memory.read : Memory → Nat → Byte
  | [], _ => unlistedByte
  | (a', b') :: m, a => if a = a' then b' else Memory.read m a

/-- `M[a] <- b`, keeping the canonical form. -/
def Memory.write : Memory → Nat → Byte → Memory
  | [], a, b => if b = unlistedByte then [] else [(a, b)]
  | (a', b') :: m, a, b =>
    if a < a' then (if b = unlistedByte then (a', b') :: m else (a, b) :: (a', b') :: m)
    else if a = a' then (if b = unlistedByte then m else (a, b) :: m)
    else (a', b') :: Memory.write m a b

/-- The `n` bytes `M[a], …, M[a+n−1]`. -/
def Memory.readBytes (m : Memory) (a : Nat) : Nat → List Byte
  | 0 => []
  | n + 1 => m.read a :: m.readBytes (a + 1) n

/-- `M[a + i] <- bs[i]` for every `i` (R34). -/
def Memory.writeBytes (m : Memory) (a : Nat) : List Byte → Memory
  | [] => m
  | b :: bs => (m.write a b).writeBytes (a + 1) bs

/-- A buffer whose byte at address `i` is `bs[i]` (R7, R27: `MEM_INIT`). -/
def Memory.ofBytes (bs : List Byte) : Memory := Memory.writeBytes [] 0 bs

end Sys2Proof.Machine
end

