-- ==== Sys2Proof/Machine/State.lean ====
section
/-! DEFINITION. The state of one machine instance (R10), its construction (R27, R110), and the ways a step can stop. -/

namespace Sys2Proof.Machine

/-- The failure kinds, the values of `fail_kind` (R21). -/
inductive FailKind where
  | register
  | memory
  | code
  | unimplemented
deriving DecidableEq, Repr

/-- The run state (R21). `fail_kind` has a meaning only in `Failed` (R21, R27) and is carried there
(DESIGN CHOICE, safe: notes/assumptions/5.md). -/
inductive RunState where
  | running
  | halted
  | endOfInput
  | failed (kind : FailKind)
deriving DecidableEq, Repr

/-- The complete state (R10). `prog` and `memCap` are the construction parameters that the instance owns and that
nothing changes (R7, R10, R25, R30). -/
structure State where
  /-- `x[0..15]` (R11). -/
  regs : Vector Word 16
  /-- `pc`, a byte offset into `PROG` (R16). -/
  pc : Word
  /-- `M` (R20). -/
  mem : Memory
  /-- `sp`, the stack cursor, held in the memory/stack controller and no register (R19). -/
  sp : Nat
  /-- `run_state`, with `fail_kind` (R21). -/
  runState : RunState
  /-- `PROG` (R25). -/
  prog : List Byte
  /-- `MEM_CAP` (R7, R30). -/
  memCap : Nat
deriving DecidableEq, Repr

/-- Why the machine stops with a fault. -/
inductive Fault where
  /-- A step was asked of a machine whose run has ended: `Step` is not defined there (R101, D24). Raised by `step`
  alone, for every state whose run state is not Running. Safe: the spec gives such a machine no step, and none is
  invented (notes/assumptions/7.md). -/
  | terminated
deriving DecidableEq, Repr

/-- Why the model gives an instruction no meaning. -/
inductive Refusal where
  /-- The named instruction has no meaning yet. Raised by no arm of `exec`: every instruction is modelled. Safe. -/
  | notModelled (mnemonic : String)
deriving DecidableEq, Repr

-- The updates. Each is one field; every operation changes the state through these.

/-- `pc <- t` (R16). -/
def State.setPc (s : State) (t : Word) : State := { s with pc := t }

/-- The register file replaced. -/
def State.setRegs (s : State) (r : Vector Word 16) : State := { s with regs := r }

/-- The buffer's content replaced. -/
def State.setMem (s : State) (m : Memory) : State := { s with mem := m }

/-- The stack cursor replaced. -/
def State.setSp (s : State) (n : Nat) : State := { s with sp := n }

/-- `run_state <- r` (R21). -/
def State.setRunState (s : State) (r : RunState) : State := { s with runState := r }

/-- `PROG` replaced: what a host does before a run, and no step does. -/
def State.setProg (s : State) (p : List Byte) : State := { s with prog := p }

/-- Machine construction from the host's parameters (R27, R110). -/
def State.construct (p : Params) : State where
  regs := p.regInit
  pc := p.pcInit
  mem := Memory.ofBytes p.memInit
  sp := p.memCap
  runState := .running
  prog := p.prog
  memCap := p.memCap

/-- The machine right after construction with `Config.resetParams` (R27). -/
def State.reset : State := State.construct Config.resetParams

end Sys2Proof.Machine
end

