-- ==== Sys2Proof/Machine/Ops.lean ====
section
/-! DEFINITION. The operations of the register file (R12 to R14), of the memory/stack controller (R32 to R39), and
taking a condition (R90, R100). The machine has no return from a condition (R101). -/

namespace Sys2Proof.Machine

/-- The six conditions (R91). -/
inductive Condition where
  | register
  | memory
  | code
  | unimplemented
  | halt
  | endOfInput
deriving DecidableEq, Repr

-- Taking a condition.

/-- The run state the loop enters on a condition (R90, R91). -/
def Condition.runState : Condition → RunState
  | .register => .failed .register
  | .memory => .failed .memory
  | .code => .failed .code
  | .unimplemented => .failed .unimplemented
  | .halt => .halted
  | .endOfInput => .endOfInput

/-- What happens on a condition: `run_state` (and `fail_kind`) is written; no state is saved, control goes nowhere, and
everything else stays as the failing step left it (R90, R100). -/
def takeCondition (k : Condition) (s : State) : State := s.setRunState k.runState

/-- The end of `Execute` (R90): with no condition the run goes on in the state the instruction left; a condition is
taken in the state `s` that the instruction started from, which an instruction that raises has not changed (R92). -/
def conclude (s : State) (r : Except Condition State) : Host.Outcome State Fault Refusal :=
  match r with
  | .ok t => .next t
  | .error k => .next (takeCondition k s)

-- The register file.

/-- `x[i]`, the unvalidated read (R12). -/
def State.x (s : State) (i : RegId) : Word := s.regs[i.toNat]'(i.isLt)

/-- `x[i] <- v`, the unvalidated write (R12). -/
def State.setX (s : State) (i : RegId) (v : Word) : State := s.setRegs (s.regs.set i.toNat v i.isLt)

/-- `RegRead(i)`, the validated read (R13). -/
def regRead (s : State) (i : RegId) : Except Condition Word :=
  if i = rNONE then .error .register else .ok (s.x i)

/-- `RegWrite(i, v)`, the validated write (R14). -/
def regWrite (s : State) (i : RegId) (v : Word) : Except Condition State :=
  if i = rNONE then .error .register else .ok (s.setX i v)

-- The memory/stack controller: typed and plain access.

/-- `M[a]` (R20). -/
def State.byteAt (s : State) (a : Nat) : Byte := s.mem.read a

/-- The bounds check `a + n ≤ MEM_CAP`, on unbounded integers (R32, D10). -/
def inBounds (s : State) (a n : Nat) : Bool := a + n ≤ s.memCap

/-- `MemRead(addr, n)`: an `n`-byte little-endian value (R33). -/
def memRead (s : State) (addr : Word) (n : Nat) : Except Condition (BitVec (8 * n)) :=
  if inBounds s addr.toNat n then .ok (BitVec.ofNat (8 * n) (leNat (s.mem.readBytes addr.toNat n)))
  else .error .memory

/-- `MemWrite(addr, n, v)`: checked before any byte is written (R34). -/
def memWrite (s : State) (addr : Word) (n : Nat) (v : BitVec (8 * n)) : Except Condition State :=
  if inBounds s addr.toNat n then .ok (s.setMem (s.mem.writeBytes addr.toNat (leBytes n v.toNat)))
  else .error .memory

/-- `ByteRead(a)`, plain indexed access; out of range raises Memory (R35, D15: notes/assumptions/13.md). -/
def byteRead (s : State) (a : Word) : Except Condition Byte :=
  if a.toNat < s.memCap then .ok (s.byteAt a.toNat) else .error .memory

/-- `ByteWrite(a, b)` (R35, D15: notes/assumptions/13.md). -/
def byteWrite (s : State) (a : Word) (b : Byte) : Except Condition State :=
  if a.toNat < s.memCap then .ok (s.setMem (s.mem.write a.toNat b)) else .error .memory

-- The stack primitives. No instruction invokes them (R36 to R39, R85 to R88).

/-- `unused()`: the bytes that can still be pushed (R39). -/
def unused (s : State) : Nat := s.sp

/-- `used()`: the bytes on the stack (R39). -/
def used (s : State) : Nat := s.memCap - s.sp

/-- `Push(b)`: the corrected contract, strictly positive before the decrement (R36, 90_conflicts.md C3). -/
def push (s : State) (b : Byte) : Except Condition State :=
  if s.sp = 0 then .error .memory
  else .ok ((s.setSp (s.sp - 1)).setMem (s.mem.write (s.sp - 1) b))

/-- The bytes of `PushN` as they lie in memory from the new cursor up, in either reading of `PUSH_N_ORDER` (R37). -/
def pushNLayout (order : PushNOrder) (bs : List Byte) : List Byte :=
  match order with
  | .sequential => bs.reverse
  | .block => bs

/-- `PushN(bs)` with its open parameter as an argument: no partial write (R37). -/
def pushNWith (order : PushNOrder) (s : State) (bs : List Byte) : Except Condition State :=
  if s.sp < bs.length then .error .memory
  else .ok ((s.setSp (s.sp - bs.length)).setMem (s.mem.writeBytes (s.sp - bs.length) (pushNLayout order bs)))

/-- `PushN(bs)` in whichever order the implementation has (R37, D16: notes/assumptions/12.md). -/
def pushN (s : State) (bs : List Byte) : Except Condition State := pushNWith Config.pushNOrder s bs

/-- `Pop()`: the byte at the cursor, which stays in memory, and the cursor moved up (R38). -/
def pop (s : State) : Except Condition (Byte × State) :=
  if s.sp = s.memCap then .error .memory
  else .ok (s.byteAt s.sp, s.setSp (s.sp + 1))

end Sys2Proof.Machine
end

