-- ==== Sys2Proof/Machine/Arith.lean ====
section
/-! DEFINITION. Instruction family 3: arithmetic and bitwise operations (spec/43_arith.md). -/

namespace Sys2Proof.Machine

/-- The common rule: `vB`, then `vA`, then `x[rB] <- OP(vB, vA)` (R78). -/
def arithmetic (op : (vB vA : Word) → Word) (rA rB : RegId) (s : State) : Host.Outcome State Fault Refusal :=
  conclude s ((regRead s rB).bind fun vB => (regRead s rA).bind fun vA => regWrite s rB (op vB vA))

/-- `addq rA, rB`: `vB + vA` modulo 2^64 (R79). -/
def execAddq (rA rB : RegId) (s : State) : Host.Outcome State Fault Refusal :=
  arithmetic (fun vB vA => vB + vA) rA rB s

/-- `subq rA, rB`: `vB − vA` modulo 2^64, the destination's value the minuend (R80). -/
def execSubq (rA rB : RegId) (s : State) : Host.Outcome State Fault Refusal :=
  arithmetic (fun vB vA => vB - vA) rA rB s

/-- `andq rA, rB` (R81). -/
def execAndq (rA rB : RegId) (s : State) : Host.Outcome State Fault Refusal :=
  arithmetic (fun vB vA => vB &&& vA) rA rB s

/-- `xorq rA, rB` (R82). -/
def execXorq (rA rB : RegId) (s : State) : Host.Outcome State Fault Refusal :=
  arithmetic (fun vB vA => vB ^^^ vA) rA rB s

end Sys2Proof.Machine
end

