-- ==== Sys2Proof/Machine/CallStack.lean ====
section
/-! DEFINITION. Instruction family 5: call, return, push, pop: decoded, not executed (spec/45_call_stack.md). The
no-op behaviour is the specified behaviour of this hardware; the spec asks that the four meanings be marked as
following the source's first alternative (93 U2). DESIGN CHOICE: notes/assumptions/9.md. -/

namespace Sys2Proof.Machine

/-- `call Dest`: no operation; `pc` is not set to the target and nothing is pushed (R85). DESIGN CHOICE (U2). -/
def execCall (_dest : Word) (s : State) : Host.Outcome State Fault Refusal := conclude s (.ok s)

/-- `ret`: no operation; nothing is popped (R86). DESIGN CHOICE (U2). -/
def execRet (s : State) : Host.Outcome State Fault Refusal := conclude s (.ok s)

/-- `pushq rA`: no operation; neither nibble is validated, `Push` is not invoked (R87). DESIGN CHOICE (U2). -/
def execPushq (_rA _rB : RegId) (s : State) : Host.Outcome State Fault Refusal := conclude s (.ok s)

/-- `popq rA`: no operation; neither nibble is validated, `Pop` is not invoked (R88). DESIGN CHOICE (U2). -/
def execPopq (_rA _rB : RegId) (s : State) : Host.Outcome State Fault Refusal := conclude s (.ok s)

end Sys2Proof.Machine
end

