-- ==== Sys2Proof/Machine/HaltNop.lean ====
section
/-! DEFINITION. Instruction family 0: halt and nop (spec/40_halt_nop.md). Every meaning of the six families runs after
the decoder has advanced `pc` past the instruction (R17). -/

namespace Sys2Proof.Machine

/-- `halt`: raises Halt, always (R70). -/
def execHalt (s : State) : Host.Outcome State Fault Refusal := conclude s (.error .halt)

/-- `nop`: no state change (R71). -/
def execNop (s : State) : Host.Outcome State Fault Refusal := conclude s (.ok s)

end Sys2Proof.Machine
end

