-- ==== Sys2Proof/Machine/Jump.lean ====
section
/-! DEFINITION. Instruction family 4: jump (spec/44_jump.md). -/

namespace Sys2Proof.Machine

/-- `jmp Dest`: the target is not checked (R83). -/
def execJmp (dest : Word) (s : State) : Host.Outcome State Fault Refusal := conclude s (.ok (s.setPc dest))

/-- A jump with a function code other than 0: Unimplemented, `pc` not set to the target
(R84, D5: notes/assumptions/10.md). -/
def reservedJump (s : State) : Host.Outcome State Fault Refusal := conclude s (.error .unimplemented)

/-- `j.1`: reserved (R84). -/
def execJ1 (_dest : Word) (s : State) : Host.Outcome State Fault Refusal := reservedJump s

/-- `j.2`: reserved (R84). -/
def execJ2 (_dest : Word) (s : State) : Host.Outcome State Fault Refusal := reservedJump s

/-- `j.3`: reserved (R84). -/
def execJ3 (_dest : Word) (s : State) : Host.Outcome State Fault Refusal := reservedJump s

/-- `j.4`: reserved (R84). -/
def execJ4 (_dest : Word) (s : State) : Host.Outcome State Fault Refusal := reservedJump s

/-- `j.5`: reserved (R84). -/
def execJ5 (_dest : Word) (s : State) : Host.Outcome State Fault Refusal := reservedJump s

/-- `j.6`: reserved (R84). -/
def execJ6 (_dest : Word) (s : State) : Host.Outcome State Fault Refusal := reservedJump s

/-- `j.7`: reserved (R84). -/
def execJ7 (_dest : Word) (s : State) : Host.Outcome State Fault Refusal := reservedJump s

/-- `j.8`: reserved (R84). -/
def execJ8 (_dest : Word) (s : State) : Host.Outcome State Fault Refusal := reservedJump s

/-- `j.9`: reserved (R84). -/
def execJ9 (_dest : Word) (s : State) : Host.Outcome State Fault Refusal := reservedJump s

/-- `j.10`: reserved (R84). -/
def execJ10 (_dest : Word) (s : State) : Host.Outcome State Fault Refusal := reservedJump s

/-- `j.11`: reserved (R84). -/
def execJ11 (_dest : Word) (s : State) : Host.Outcome State Fault Refusal := reservedJump s

/-- `j.12`: reserved (R84). -/
def execJ12 (_dest : Word) (s : State) : Host.Outcome State Fault Refusal := reservedJump s

/-- `j.13`: reserved (R84). -/
def execJ13 (_dest : Word) (s : State) : Host.Outcome State Fault Refusal := reservedJump s

/-- `j.14`: reserved (R84). -/
def execJ14 (_dest : Word) (s : State) : Host.Outcome State Fault Refusal := reservedJump s

/-- `j.15`: reserved (R84). -/
def execJ15 (_dest : Word) (s : State) : Host.Outcome State Fault Refusal := reservedJump s

end Sys2Proof.Machine
end

