-- ==== Sys2Proof/Syntax.lean ====
section
/-! DEFINITION. The instructions: one constructor per row of spec/opcode_table.json, with the fields of spec/30_encoding.md R68. -/

namespace Sys2Proof

/-- A pointer (addressing descriptor) `{base, off}`: a base register id, 15 meaning no base, and a signed 64-bit
offset held as the integer it is (R41). -/
structure Pointer where
  base : RegId
  off : Int
deriving DecidableEq, Repr

/-- The decoded instruction value (R68). The operand order is the encoding's: high nibble, low nibble, 8-byte field,
except that a pointer stands where its base and displacement do. `irmovq` carries no field for the nibble that the
decoder ignores (R58, R68); `pushq` and `popq` carry both nibbles of their register-pair byte (R68). -/
inductive Instr where
  -- family 0 (40_halt_nop.md)
  | halt
  | nop
  -- family 1 (41_register_moves.md): rA is the high nibble, rB the low one
  | rrmovq (rA rB : RegId)
  | cmov1 (rA rB : RegId)
  | cmov2 (rA rB : RegId)
  | cmov3 (rA rB : RegId)
  | cmov4 (rA rB : RegId)
  | cmov5 (rA rB : RegId)
  | cmov6 (rA rB : RegId)
  | cmov7 (rA rB : RegId)
  | cmov8 (rA rB : RegId)
  | cmov9 (rA rB : RegId)
  | cmov10 (rA rB : RegId)
  | cmov11 (rA rB : RegId)
  | cmov12 (rA rB : RegId)
  | cmov13 (rA rB : RegId)
  | cmov14 (rA rB : RegId)
  | cmov15 (rA rB : RegId)
  | irmovq (v : Word) (rB : RegId)
  -- family 2 (42_memory_moves.md)
  | rmmovq (rA : RegId) (p : Pointer)
  | mrmovq (p : Pointer) (rA : RegId)
  -- family 3 (43_arith.md)
  | addq (rA rB : RegId)
  | subq (rA rB : RegId)
  | andq (rA rB : RegId)
  | xorq (rA rB : RegId)
  -- family 4 (44_jump.md)
  | jmp (dest : Word)
  | j1 (dest : Word)
  | j2 (dest : Word)
  | j3 (dest : Word)
  | j4 (dest : Word)
  | j5 (dest : Word)
  | j6 (dest : Word)
  | j7 (dest : Word)
  | j8 (dest : Word)
  | j9 (dest : Word)
  | j10 (dest : Word)
  | j11 (dest : Word)
  | j12 (dest : Word)
  | j13 (dest : Word)
  | j14 (dest : Word)
  | j15 (dest : Word)
  -- family 5 (45_call_stack.md)
  | call (dest : Word)
  | ret
  | pushq (rA rB : RegId)
  | popq (rA rB : RegId)
deriving DecidableEq, Repr

end Sys2Proof
end

