-- ==== Sys2Proof/Machine/Operands.lean ====
section
/-! DEFINITION. The pointer unit (R40, R41): the machine's one memory operand form, base plus displacement (R77). The
other operand forms are a register id (read and written through `regRead` and `regWrite`), a 64-bit immediate and a
64-bit absolute target, which need no computation (R59). -/

namespace Sys2Proof.Machine

/-- `Resolve(base, off)`: the base unvalidated, the sentinel giving 0, addition modulo 2^64; never raises (R40). -/
def resolve (s : State) (p : Pointer) : Word :=
  (if p.base = rNONE then 0 else s.x p.base) + bits64 p.off

/-- `{base, off} + k`: a new pointer, the offset in 64-bit two's complement wraparound (R41, D17: notes/assumptions/13.md). -/
def pointerAdd (p : Pointer) (k : Int) : Pointer := { p with off := sext64 (bits64 p.off + bits64 k) }

/-- `{base, off} − k`, likewise (R41, D17: notes/assumptions/13.md). -/
def pointerSub (p : Pointer) (k : Int) : Pointer := { p with off := sext64 (bits64 p.off - bits64 k) }

end Sys2Proof.Machine
end

