-- ==== Sys2Proof/Machine/MemMoves.lean ====
section
/-! DEFINITION. Instruction family 2: the memory moves (spec/42_memory_moves.md). -/

namespace Sys2Proof.Machine

/-- `rmmovq rA, D(rB)`: the value is obtained before it can be written, so Register comes before Memory
(R75, D14: notes/assumptions/15.md). -/
def execRmmovq (rA : RegId) (p : Pointer) (s : State) : Host.Outcome State Fault Refusal :=
  conclude s ((regRead s rA).bind fun v => memWrite s (resolve s p) 8 v)

/-- `mrmovq D(rB), rA`: the read comes before the register write, so Memory comes before Register
(R76, D14: notes/assumptions/15.md). -/
def execMrmovq (p : Pointer) (rA : RegId) (s : State) : Host.Outcome State Fault Refusal :=
  conclude s ((memRead s (resolve s p) 8).bind fun v => regWrite s rA v)

end Sys2Proof.Machine
end

