-- ==== Sys2Proof/Machine/RegMoves.lean ====
section
/-! DEFINITION. Instruction family 1: register move and immediate move (spec/41_register_moves.md). -/

namespace Sys2Proof.Machine

/-- `rrmovq rA, rB` (R72). -/
def execRrmovq (rA rB : RegId) (s : State) : Host.Outcome State Fault Refusal :=
  conclude s ((regRead s rA).bind fun v => regWrite s rB v)

/-- `irmovq V, rB` (R74). -/
def execIrmovq (v : Word) (rB : RegId) (s : State) : Host.Outcome State Fault Refusal := conclude s (regWrite s rB v)

/-- A register move with a function code other than 0: Unimplemented, before any operand is looked at
(R73, D5, D14: notes/assumptions/10.md). -/
def reservedMove (s : State) : Host.Outcome State Fault Refusal := conclude s (.error .unimplemented)

/-- `cmov.1`: reserved (R73). -/
def execCmov1 (_rA _rB : RegId) (s : State) : Host.Outcome State Fault Refusal := reservedMove s

/-- `cmov.2`: reserved (R73). -/
def execCmov2 (_rA _rB : RegId) (s : State) : Host.Outcome State Fault Refusal := reservedMove s

/-- `cmov.3`: reserved (R73). -/
def execCmov3 (_rA _rB : RegId) (s : State) : Host.Outcome State Fault Refusal := reservedMove s

/-- `cmov.4`: reserved (R73). -/
def execCmov4 (_rA _rB : RegId) (s : State) : Host.Outcome State Fault Refusal := reservedMove s

/-- `cmov.5`: reserved (R73). -/
def execCmov5 (_rA _rB : RegId) (s : State) : Host.Outcome State Fault Refusal := reservedMove s

/-- `cmov.6`: reserved (R73). -/
def execCmov6 (_rA _rB : RegId) (s : State) : Host.Outcome State Fault Refusal := reservedMove s

/-- `cmov.7`: reserved (R73). -/
def execCmov7 (_rA _rB : RegId) (s : State) : Host.Outcome State Fault Refusal := reservedMove s

/-- `cmov.8`: reserved (R73). -/
def execCmov8 (_rA _rB : RegId) (s : State) : Host.Outcome State Fault Refusal := reservedMove s

/-- `cmov.9`: reserved (R73). -/
def execCmov9 (_rA _rB : RegId) (s : State) : Host.Outcome State Fault Refusal := reservedMove s

/-- `cmov.10`: reserved (R73). -/
def execCmov10 (_rA _rB : RegId) (s : State) : Host.Outcome State Fault Refusal := reservedMove s

/-- `cmov.11`: reserved (R73). -/
def execCmov11 (_rA _rB : RegId) (s : State) : Host.Outcome State Fault Refusal := reservedMove s

/-- `cmov.12`: reserved (R73). -/
def execCmov12 (_rA _rB : RegId) (s : State) : Host.Outcome State Fault Refusal := reservedMove s

/-- `cmov.13`: reserved (R73). -/
def execCmov13 (_rA _rB : RegId) (s : State) : Host.Outcome State Fault Refusal := reservedMove s

/-- `cmov.14`: reserved (R73). -/
def execCmov14 (_rA _rB : RegId) (s : State) : Host.Outcome State Fault Refusal := reservedMove s

/-- `cmov.15`: reserved (R73). -/
def execCmov15 (_rA _rB : RegId) (s : State) : Host.Outcome State Fault Refusal := reservedMove s

end Sys2Proof.Machine
end

