-- ==== Sys2Proof/Machine/Dispatch.lean ====
section
/-! DEFINITION. `Execute(insn)`: one entry point dispatching on the tag (R68, R90), one arm per instruction. -/

namespace Sys2Proof.Machine

def exec (i : Instr) (s : State) : Host.Outcome State Fault Refusal :=
  match i with
  | .halt => Sys2Proof.Machine.execHalt s
  | .nop => Sys2Proof.Machine.execNop s
  | .rrmovq rA rB => Sys2Proof.Machine.execRrmovq rA rB s
  | .cmov1 rA rB => Sys2Proof.Machine.execCmov1 rA rB s
  | .cmov2 rA rB => Sys2Proof.Machine.execCmov2 rA rB s
  | .cmov3 rA rB => Sys2Proof.Machine.execCmov3 rA rB s
  | .cmov4 rA rB => Sys2Proof.Machine.execCmov4 rA rB s
  | .cmov5 rA rB => Sys2Proof.Machine.execCmov5 rA rB s
  | .cmov6 rA rB => Sys2Proof.Machine.execCmov6 rA rB s
  | .cmov7 rA rB => Sys2Proof.Machine.execCmov7 rA rB s
  | .cmov8 rA rB => Sys2Proof.Machine.execCmov8 rA rB s
  | .cmov9 rA rB => Sys2Proof.Machine.execCmov9 rA rB s
  | .cmov10 rA rB => Sys2Proof.Machine.execCmov10 rA rB s
  | .cmov11 rA rB => Sys2Proof.Machine.execCmov11 rA rB s
  | .cmov12 rA rB => Sys2Proof.Machine.execCmov12 rA rB s
  | .cmov13 rA rB => Sys2Proof.Machine.execCmov13 rA rB s
  | .cmov14 rA rB => Sys2Proof.Machine.execCmov14 rA rB s
  | .cmov15 rA rB => Sys2Proof.Machine.execCmov15 rA rB s
  | .irmovq v rB => Sys2Proof.Machine.execIrmovq v rB s
  | .rmmovq rA p => Sys2Proof.Machine.execRmmovq rA p s
  | .mrmovq p rA => Sys2Proof.Machine.execMrmovq p rA s
  | .addq rA rB => Sys2Proof.Machine.execAddq rA rB s
  | .subq rA rB => Sys2Proof.Machine.execSubq rA rB s
  | .andq rA rB => Sys2Proof.Machine.execAndq rA rB s
  | .xorq rA rB => Sys2Proof.Machine.execXorq rA rB s
  | .jmp dest => Sys2Proof.Machine.execJmp dest s
  | .j1 dest => Sys2Proof.Machine.execJ1 dest s
  | .j2 dest => Sys2Proof.Machine.execJ2 dest s
  | .j3 dest => Sys2Proof.Machine.execJ3 dest s
  | .j4 dest => Sys2Proof.Machine.execJ4 dest s
  | .j5 dest => Sys2Proof.Machine.execJ5 dest s
  | .j6 dest => Sys2Proof.Machine.execJ6 dest s
  | .j7 dest => Sys2Proof.Machine.execJ7 dest s
  | .j8 dest => Sys2Proof.Machine.execJ8 dest s
  | .j9 dest => Sys2Proof.Machine.execJ9 dest s
  | .j10 dest => Sys2Proof.Machine.execJ10 dest s
  | .j11 dest => Sys2Proof.Machine.execJ11 dest s
  | .j12 dest => Sys2Proof.Machine.execJ12 dest s
  | .j13 dest => Sys2Proof.Machine.execJ13 dest s
  | .j14 dest => Sys2Proof.Machine.execJ14 dest s
  | .j15 dest => Sys2Proof.Machine.execJ15 dest s
  | .call dest => Sys2Proof.Machine.execCall dest s
  | .ret => Sys2Proof.Machine.execRet s
  | .pushq rA rB => Sys2Proof.Machine.execPushq rA rB s
  | .popq rA rB => Sys2Proof.Machine.execPopq rA rB s

end Sys2Proof.Machine
end

