-- ==== Sys2Proof/Decode.lean ====
section
/-! DEFINITION. The opcode family values (R8, R52), the opcode map (R64), the decoder (R53) and the encoder (R66). -/

namespace Sys2Proof

-- OPC_*, the values of R8 and R52 (D1, D2). UNVERIFIED, unsafe if the original program differs: notes/assumptions/8.md.
/-- `OPC_HALT` (R8). -/
def Config.opcHalt : Nibble := 0x0
/-- `OPC_NOP` (R8). -/
def Config.opcNop : Nibble := 0x1
/-- `OPC_RRMOV` (R8). -/
def Config.opcRrmov : Nibble := 0x2
/-- `OPC_IRMOV` (R8). -/
def Config.opcIrmov : Nibble := 0x3
/-- `OPC_RMMOV` (R8). -/
def Config.opcRmmov : Nibble := 0x4
/-- `OPC_MRMOV` (R8). -/
def Config.opcMrmov : Nibble := 0x5
/-- `OPC_OP` (R8). -/
def Config.opcOp : Nibble := 0x6
/-- `OPC_JUMP` (R8). -/
def Config.opcJump : Nibble := 0x7
/-- `OPC_CALL` (R8). -/
def Config.opcCall : Nibble := 0x8
/-- `OPC_RET` (R8). -/
def Config.opcRet : Nibble := 0x9
/-- `OPC_PUSH` (R8). -/
def Config.opcPush : Nibble := 0xA
/-- `OPC_POP` (R8). -/
def Config.opcPop : Nibble := 0xB

/-- The four formats of R54 to R57, each with the instruction it builds from its operand fields (R58, R59, R68). -/
inductive Format where
  /-- One byte (R54). -/
  | f1 (i : Instr)
  /-- Opcode byte and register-pair byte (R55). -/
  | f2 (mk : (rA rB : RegId) → Instr)
  /-- Opcode byte, 8-byte field (R57). -/
  | f9 (mk : (field : Word) → Instr)
  /-- Opcode byte, register-pair byte, 8-byte field (R56). -/
  | f10 (mk : (rA rB : RegId) → (field : Word) → Instr)

/-- The length `L` of an instruction of this format (R52, R54 to R57). -/
def Format.length : Format → Nat
  | .f1 _ => 1
  | .f2 _ => 2
  | .f9 _ => 9
  | .f10 _ => 10

/-- The pointer that the decoder builds from the low nibble and the 8-byte field (R59, R68, R77). -/
def pointerOf (rB : RegId) (field : Word) : Pointer := { base := rB, off := sext64 field }

/-- One row of the opcode map: the whole first byte, as family value and function code, and what it selects. -/
def row (icode ifun : Nibble) (f : Format) : Byte × Format := (packByte icode ifun, f)

/-- The one-byte families, whose function code must be 0 (R54, R60). -/
def rowsPlain : List (Byte × Format) :=
  [row Config.opcHalt 0 (.f1 .halt),
   row Config.opcNop 0 (.f1 .nop),
   row Config.opcRet 0 (.f1 .ret)]

/-- The register-to-register move, all function codes (R55, R62). -/
def rowsMove : List (Byte × Format) :=
  [row Config.opcRrmov 0 (.f2 .rrmovq),
   row Config.opcRrmov 1 (.f2 .cmov1),
   row Config.opcRrmov 2 (.f2 .cmov2),
   row Config.opcRrmov 3 (.f2 .cmov3),
   row Config.opcRrmov 4 (.f2 .cmov4),
   row Config.opcRrmov 5 (.f2 .cmov5),
   row Config.opcRrmov 6 (.f2 .cmov6),
   row Config.opcRrmov 7 (.f2 .cmov7),
   row Config.opcRrmov 8 (.f2 .cmov8),
   row Config.opcRrmov 9 (.f2 .cmov9),
   row Config.opcRrmov 10 (.f2 .cmov10),
   row Config.opcRrmov 11 (.f2 .cmov11),
   row Config.opcRrmov 12 (.f2 .cmov12),
   row Config.opcRrmov 13 (.f2 .cmov13),
   row Config.opcRrmov 14 (.f2 .cmov14),
   row Config.opcRrmov 15 (.f2 .cmov15)]

/-- The ten-byte families (R56, R60). `irmovq` takes no account of the high nibble (R58), the memory moves take the
low nibble as base (R58, D7: notes/assumptions/17.md). -/
def rowsField : List (Byte × Format) :=
  [row Config.opcIrmov 0 (.f10 fun _ rB v => .irmovq v rB),
   row Config.opcRmmov 0 (.f10 fun rA rB d => .rmmovq rA (pointerOf rB d)),
   row Config.opcMrmov 0 (.f10 fun rA rB d => .mrmovq (pointerOf rB d) rA)]

/-- The arithmetic family, function codes 0 to 3 (R55, R61, R78). -/
def rowsArith : List (Byte × Format) :=
  [row Config.opcOp 0 (.f2 .addq),
   row Config.opcOp 1 (.f2 .subq),
   row Config.opcOp 2 (.f2 .andq),
   row Config.opcOp 3 (.f2 .xorq)]

/-- The jump, all function codes (R57, R62). -/
def rowsJump : List (Byte × Format) :=
  [row Config.opcJump 0 (.f9 .jmp),
   row Config.opcJump 1 (.f9 .j1),
   row Config.opcJump 2 (.f9 .j2),
   row Config.opcJump 3 (.f9 .j3),
   row Config.opcJump 4 (.f9 .j4),
   row Config.opcJump 5 (.f9 .j5),
   row Config.opcJump 6 (.f9 .j6),
   row Config.opcJump 7 (.f9 .j7),
   row Config.opcJump 8 (.f9 .j8),
   row Config.opcJump 9 (.f9 .j9),
   row Config.opcJump 10 (.f9 .j10),
   row Config.opcJump 11 (.f9 .j11),
   row Config.opcJump 12 (.f9 .j12),
   row Config.opcJump 13 (.f9 .j13),
   row Config.opcJump 14 (.f9 .j14),
   row Config.opcJump 15 (.f9 .j15)]

/-- The families that are decoded and not executed, but for `ret` (R55, R57, R60). -/
def rowsCallStack : List (Byte × Format) :=
  [row Config.opcCall 0 (.f9 .call),
   row Config.opcPush 0 (.f2 .pushq),
   row Config.opcPop 0 (.f2 .popq)]

/-- The opcode map: the 45 recognized values of the first byte (R64). -/
def opcodeMap : List (Byte × Format) :=
  rowsPlain ++ rowsMove ++ rowsField ++ rowsArith ++ rowsJump ++ rowsCallStack

/-- What the first byte selects; `none` is an unrecognized first byte (R51, R60 to R64). -/
def formatOf (b0 : Byte) : Option Format := opcodeMap.lookup b0

/-- The register-pair byte: offset 1 of the instruction (R55, R56), given the bytes after the first. -/
def pairByte (rest : List Byte) : Byte := rest.headD 0

/-- The 8-byte little-endian field that starts these bytes (R59). -/
def field8 (bs : List Byte) : Word := BitVec.ofNat 64 (leNat (bs.take 8))

/-- The instruction value built from the bytes after the first (R53, R58, R59, R68). -/
def Format.build (f : Format) (rest : List Byte) : Instr :=
  match f with
  | .f1 i => i
  | .f2 mk => mk (hiNibble (pairByte rest)) (loNibble (pairByte rest))
  | .f9 mk => mk (field8 rest)
  | .f10 mk => mk (hiNibble (pairByte rest)) (loNibble (pairByte rest)) (field8 rest.tail)

/-- Why decoding fails (R53, R69): exactly these two. -/
inductive DecodeError where
  /-- An unrecognized first byte (R95). -/
  | code
  /-- Fewer bytes remain than the family needs (R96). -/
  | endOfInput
deriving DecidableEq, Repr

/-- The decode procedure (R53) on the bytes of the stream from `pc` on: the instruction and its length `L`. The first
byte is classified before the remaining bytes are counted (R53, R99 items 2 and 3). -/
def decode : List Byte → Except DecodeError (Instr × Nat)
  | [] => .error .endOfInput
  | b0 :: rest =>
    match formatOf b0 with
    | none => .error .code
    | some f =>
      if rest.length + 1 < f.length then .error .endOfInput
      else .ok (f.build rest, f.length)

-- The encoder: the bytes of R66, field by field as R54 to R57 lay them out.

/-- Format F1 (R54). -/
def encF1 (icode : Nibble) : List Byte := [packByte icode 0]

/-- Format F2 (R55). -/
def encF2 (icode ifun : Nibble) (rA rB : RegId) : List Byte := [packByte icode ifun, packByte rA rB]

/-- Format F9 (R57). -/
def encF9 (icode ifun : Nibble) (field : Word) : List Byte := packByte icode ifun :: leBytes 8 field.toNat

/-- Format F10 (R56). -/
def encF10 (icode : Nibble) (rA rB : RegId) (field : Word) : List Byte :=
  packByte icode 0 :: packByte rA rB :: leBytes 8 field.toNat

/-- The bytes of an instruction (R66). The nibble that `irmovq` ignores is written 15 (R58, R66). -/
def encode : Instr → List Byte
  | .halt => encF1 Config.opcHalt
  | .nop => encF1 Config.opcNop
  | .rrmovq rA rB => encF2 Config.opcRrmov 0 rA rB
  | .cmov1 rA rB => encF2 Config.opcRrmov 1 rA rB
  | .cmov2 rA rB => encF2 Config.opcRrmov 2 rA rB
  | .cmov3 rA rB => encF2 Config.opcRrmov 3 rA rB
  | .cmov4 rA rB => encF2 Config.opcRrmov 4 rA rB
  | .cmov5 rA rB => encF2 Config.opcRrmov 5 rA rB
  | .cmov6 rA rB => encF2 Config.opcRrmov 6 rA rB
  | .cmov7 rA rB => encF2 Config.opcRrmov 7 rA rB
  | .cmov8 rA rB => encF2 Config.opcRrmov 8 rA rB
  | .cmov9 rA rB => encF2 Config.opcRrmov 9 rA rB
  | .cmov10 rA rB => encF2 Config.opcRrmov 10 rA rB
  | .cmov11 rA rB => encF2 Config.opcRrmov 11 rA rB
  | .cmov12 rA rB => encF2 Config.opcRrmov 12 rA rB
  | .cmov13 rA rB => encF2 Config.opcRrmov 13 rA rB
  | .cmov14 rA rB => encF2 Config.opcRrmov 14 rA rB
  | .cmov15 rA rB => encF2 Config.opcRrmov 15 rA rB
  | .irmovq v rB => encF10 Config.opcIrmov rNONE rB v
  | .rmmovq rA p => encF10 Config.opcRmmov rA p.base (bits64 p.off)
  | .mrmovq p rA => encF10 Config.opcMrmov rA p.base (bits64 p.off)
  | .addq rA rB => encF2 Config.opcOp 0 rA rB
  | .subq rA rB => encF2 Config.opcOp 1 rA rB
  | .andq rA rB => encF2 Config.opcOp 2 rA rB
  | .xorq rA rB => encF2 Config.opcOp 3 rA rB
  | .jmp dest => encF9 Config.opcJump 0 dest
  | .j1 dest => encF9 Config.opcJump 1 dest
  | .j2 dest => encF9 Config.opcJump 2 dest
  | .j3 dest => encF9 Config.opcJump 3 dest
  | .j4 dest => encF9 Config.opcJump 4 dest
  | .j5 dest => encF9 Config.opcJump 5 dest
  | .j6 dest => encF9 Config.opcJump 6 dest
  | .j7 dest => encF9 Config.opcJump 7 dest
  | .j8 dest => encF9 Config.opcJump 8 dest
  | .j9 dest => encF9 Config.opcJump 9 dest
  | .j10 dest => encF9 Config.opcJump 10 dest
  | .j11 dest => encF9 Config.opcJump 11 dest
  | .j12 dest => encF9 Config.opcJump 12 dest
  | .j13 dest => encF9 Config.opcJump 13 dest
  | .j14 dest => encF9 Config.opcJump 14 dest
  | .j15 dest => encF9 Config.opcJump 15 dest
  | .call dest => encF9 Config.opcCall 0 dest
  | .ret => encF1 Config.opcRet
  | .pushq rA rB => encF2 Config.opcPush 0 rA rB
  | .popq rA rB => encF2 Config.opcPop 0 rA rB

-- The host's numbering of an instruction's bits.

/-- The length of the longest instruction (R65). -/
def maxLength : Nat := 10

/-- The bytes of an instruction whose `nbits` bits are `w`, bit 0 the least significant bit of the first byte, with
every bit above `nbits` zero, as long as the longest instruction. -/
def tableBytes (nbits w : Nat) : List Byte := leBytes maxLength (w % 2 ^ nbits)

/-- The instruction the decoder reads from an instruction whose bits are `w`, numbered as spec/opcode_table.json
numbers them; `none` where it refuses. -/
def decodeTableWord (nbits w : Nat) : Option Instr :=
  match decode (tableBytes nbits w) with
  | .ok (i, _) => some i
  | .error _ => none

end Sys2Proof
end

