-- ==== Sys2Proof/Machine/Fetch.lean ====
section
/-! DEFINITION. The loop test, fetch, and the decoder's one effect on the state, the advance of `pc` (R50, R53, R90). -/

namespace Sys2Proof.Machine

/-- `Fetch(a) = PROG[a]`, defined only for `a < PROG_LEN` (R50). -/
def fetch (s : State) (a : Nat) : Option Byte := s.prog[a]?

/-- The bytes of the stream from `pc` on (R50, R53). -/
def stream (s : State) : List Byte := s.prog.drop s.pc.toNat

/-- The loop test: `pc` is within the instruction stream (R18, R90). -/
def pcInStream (s : State) : Bool := s.pc.toNat < s.prog.length

/-- The condition of a decoding failure (R53). -/
def decodeCondition : DecodeError → Condition
  | .code => .code
  | .endOfInput => .endOfInput

/-- The loop test and the decode of one step (R90, R53): the instruction and the state with `pc` advanced past it. A
failing loop test enters the same terminal state as a truncated instruction (R96, D13: notes/assumptions/19.md); a
failing decode leaves `pc` at the first byte (R53, D9: notes/assumptions/14.md). -/
def fetchDecode (s : State) : Except Condition (Instr × State) :=
  if pcInStream s then
    match decode (stream s) with
    | .ok (i, n) => .ok (i, s.setPc (s.pc + BitVec.ofNat 64 n))
    | .error e => .error (decodeCondition e)
  else .error .endOfInput

end Sys2Proof.Machine
end

