-- ==== Sys2Proof/Machine/Step.lean ====
section
/-! DEFINITION. The step of the loop sequencer (R90), and the placing of an instruction where it fetches. -/

namespace Sys2Proof.Machine

/-- One `Step` (R90): loop test and decode, then execute. Defined only while the machine is Running; a machine whose
run has ended has no step (R101, D24: notes/assumptions/7.md). -/
def step (s : State) : Host.Outcome State Fault Refusal :=
  match s.runState with
  | .running =>
    match fetchDecode s with
    | .error k => .next (takeCondition k s)
    | .ok (i, t) => exec i t
  | .halted => .fault .terminated
  | .endOfInput => .fault .terminated
  | .failed _ => .fault .terminated

/-- The list with `bytes` at offset `at_`, zeros filled in below it where the list is shorter than that. -/
def placeBytes (old : List Byte) (at_ : Nat) (bytes : List Byte) : List Byte :=
  old.take at_ ++ List.replicate (at_ - old.length) 0 ++ bytes ++ old.drop (at_ + bytes.length)

/-- The machine with this instruction placed at `pc` in its instruction stream and its run not ended: what a host does
by constructing a machine with such a `PROG` (R110, R111: notes/assumptions/3.md and 21.md). -/
def State.withFetchWord (s : State) (nbits w : Nat) : State :=
  (s.setProg (placeBytes s.prog s.pc.toNat (tableBytes nbits w))).setRunState .running

end Sys2Proof.Machine
end

