-- ==== Sys2Proof/Machine/Run.lean ====
section
/-! DEFINITION. The run and what the host is told at its end (R90, R103, R107, R117). -/

namespace Sys2Proof.Machine

/-- What the host receives (R103). -/
inductive HostResult where
  | success
  | failure (kind : FailKind)
deriving DecidableEq, Repr

/-- The result of a run that has ended in this run state; none while it has not ended (R90, R103, R117). -/
def hostResult : RunState → Option HostResult
  | .running => none
  | .halted => some .success
  | .endOfInput => some .success
  | .failed k => some (.failure k)

/-- `Run()` for at most `fuel` steps: it steps while the machine is Running and stays where the run ended (R90, R101).
The fuel is an executor's, not the machine's: a run need not end (R107). -/
def runFor : Nat → State → State
  | 0, s => s
  | fuel + 1, s =>
    match step s with
    | .next t => runFor fuel t
    | .fault _ => s
    | .refused _ => s

end Sys2Proof.Machine
end

