-- ==== Sys2Proof/Safety.lean ====
section
/-! DEFINITION. The terms the statements use: the machine's invariant (R7, R19, R28), ended and successful runs (R103,
R117), and what an instruction leaves unchanged. -/

namespace Sys2Proof.Machine

/-- What holds between steps (R28): the cursor in [0, MEM_CAP]; the ranges of R7; and of the model's memory list: the
canonical form, and every listed address below MEM_CAP (R20, R44). -/
abbrev State.Inv (s : State) : Prop :=
  s.sp ≤ s.memCap ∧ s.memCap < 2 ^ 64 ∧ s.prog.length < 2 ^ 64 ∧ s.mem.wf = true ∧ ∀ c ∈ s.mem, c.1 < s.memCap

/-- The run has ended (R117). -/
abbrev State.ended (s : State) : Prop := s.runState ≠ .running

/-- The run has ended and the host is told of success: Halted or EndOfInput, never Failed (R103, 93 U1). -/
abbrev State.succeeded (s : State) : Prop := hostResult s.runState = some .success

/-- The construction parameters and the stack cursor: what no instruction changes (R19, R25, R30). -/
def SameFixed (s t : State) : Prop := t.prog = s.prog ∧ t.memCap = s.memCap ∧ t.sp = s.sp

/-- Every byte of memory reads as before. -/
def SameBytes (s t : State) : Prop := ∀ a, t.byteAt a = s.byteAt a

/-- Every byte outside the `n` bytes from `a` reads as before. -/
def SameBytesOutside (a n : Nat) (s t : State) : Prop := ∀ b, (b < a ∨ a + n ≤ b) → t.byteAt b = s.byteAt b

/-- Every slot of the register file holds what it held, `x[15]` among them. -/
def SameRegs (s t : State) : Prop := ∀ r, t.x r = s.x r

/-- Every slot but `d` holds what it held, `x[15]` among them unless it is `d`. -/
def SameRegsBut (d : RegId) (s t : State) : Prop := ∀ r, r ≠ d → t.x r = s.x r

/-- The two states differ in nothing but the unobservable slot `x[15]` and the stack cursor (R11, R19, R49). -/
def EqualButHidden (s t : State) : Prop :=
  (∀ r, r ≠ rNONE → t.x r = s.x r) ∧ t.pc = s.pc ∧ t.mem = s.mem ∧ t.runState = s.runState ∧ t.prog = s.prog ∧
    t.memCap = s.memCap

/-- An instruction that writes one register: `d` holds `v`, and every other slot, the program counter, the run state, every
byte of memory, the cursor and the parameters are as before. -/
def OnlyRegister (d : RegId) (v : Word) (s t : State) : Prop :=
  t.x d = v ∧ SameRegsBut d s t ∧ t.pc = s.pc ∧ t.runState = s.runState ∧ SameBytes s t ∧ SameFixed s t

/-- An instruction that stores `n` bytes from address `a`: nothing but those bytes may differ. -/
def OnlyBytes (a n : Nat) (s t : State) : Prop :=
  SameBytesOutside a n s t ∧ SameRegs s t ∧ t.pc = s.pc ∧ t.runState = s.runState ∧ SameFixed s t

/-- The machine is Running and the bytes `B0, B1, …` at `pc` are these (R50, R9 section 5.4). -/
def RunsBytes (s : State) (bs : List Byte) : Prop :=
  s.runState = .running ∧ ∀ k, k < bs.length → s.prog[s.pc.toNat + k]? = bs[k]?

/-- The step from this state decodes a `jmp`: the machine is Running and byte `70` stands at `pc` as a first byte, its target
whole behind it (R83, R107). -/
def DecodesJmp (s : State) : Prop :=
  s.runState = .running ∧ ∃ dest n, decode (s.prog.drop s.pc.toNat) = .ok (.jmp dest, n)

/-- `LE8(b0, …, b7)`, written out as R9 section 5.1 writes it. -/
def LE8 (b0 b1 b2 b3 b4 b5 b6 b7 : Byte) : Word :=
  BitVec.ofNat 64 (b0.toNat + b1.toNat * 2 ^ 8 + b2.toNat * 2 ^ 16 + b3.toNat * 2 ^ 24 + b4.toNat * 2 ^ 32 +
    b5.toNat * 2 ^ 40 + b6.toNat * 2 ^ 48 + b7.toNat * 2 ^ 56)

/-- The table of R64: the length of the instruction a first byte selects, none where it is unrecognized. -/
def tableLength (b0 : Byte) : Option Nat :=
  if b0 = 0x00 ∨ b0 = 0x10 ∨ b0 = 0x90 then some 1
  else if (0x20 ≤ b0 ∧ b0 ≤ 0x2F) ∨ (0x60 ≤ b0 ∧ b0 ≤ 0x63) ∨ b0 = 0xA0 ∨ b0 = 0xB0 then some 2
  else if (0x70 ≤ b0 ∧ b0 ≤ 0x7F) ∨ b0 = 0x80 then some 9
  else if b0 = 0x30 ∨ b0 = 0x40 ∨ b0 = 0x50 then some 10
  else none

/-- The "Writes (validated)" column of the table of R15: the register an instruction may write. -/
def destination : Instr → Option RegId
  | .halt => none
  | .nop => none
  | .rrmovq _ rB => some rB
  | .cmov1 _ _ => none
  | .cmov2 _ _ => none
  | .cmov3 _ _ => none
  | .cmov4 _ _ => none
  | .cmov5 _ _ => none
  | .cmov6 _ _ => none
  | .cmov7 _ _ => none
  | .cmov8 _ _ => none
  | .cmov9 _ _ => none
  | .cmov10 _ _ => none
  | .cmov11 _ _ => none
  | .cmov12 _ _ => none
  | .cmov13 _ _ => none
  | .cmov14 _ _ => none
  | .cmov15 _ _ => none
  | .irmovq _ rB => some rB
  | .rmmovq _ _ => none
  | .mrmovq _ rA => some rA
  | .addq _ rB => some rB
  | .subq _ rB => some rB
  | .andq _ rB => some rB
  | .xorq _ rB => some rB
  | .jmp _ => none
  | .j1 _ => none
  | .j2 _ => none
  | .j3 _ => none
  | .j4 _ => none
  | .j5 _ => none
  | .j6 _ => none
  | .j7 _ => none
  | .j8 _ => none
  | .j9 _ => none
  | .j10 _ => none
  | .j11 _ => none
  | .j12 _ => none
  | .j13 _ => none
  | .j14 _ => none
  | .j15 _ => none
  | .call _ => none
  | .ret => none
  | .pushq _ _ => none
  | .popq _ _ => none

end Sys2Proof.Machine
end

