-- ==== Sys2Proof/WellFormed.lean ====
section
/-! DEFINITION. What the types do not say already: the offset of a pointer lies in i64 (R9, R41), and the host's
parameters lie in the ranges of R7. -/

namespace Sys2Proof

/-- `off` is a member of `i64` (R41, R9). -/
def Pointer.wellFormed (p : Pointer) : Bool := -2 ^ 63 ≤ p.off && p.off < 2 ^ 63

/-- An instruction is well formed when its pointer, if it has one, is: every register id, immediate and target is in
range by its type, and no register id is excluded (R58, R69). -/
def Instr.wellFormed : Instr → Bool
  | .halt => true
  | .nop => true
  | .rrmovq _ _ => true
  | .cmov1 _ _ => true
  | .cmov2 _ _ => true
  | .cmov3 _ _ => true
  | .cmov4 _ _ => true
  | .cmov5 _ _ => true
  | .cmov6 _ _ => true
  | .cmov7 _ _ => true
  | .cmov8 _ _ => true
  | .cmov9 _ _ => true
  | .cmov10 _ _ => true
  | .cmov11 _ _ => true
  | .cmov12 _ _ => true
  | .cmov13 _ _ => true
  | .cmov14 _ _ => true
  | .cmov15 _ _ => true
  | .irmovq _ _ => true
  | .rmmovq _ p => p.wellFormed
  | .mrmovq p _ => p.wellFormed
  | .addq _ _ => true
  | .subq _ _ => true
  | .andq _ _ => true
  | .xorq _ _ => true
  | .jmp _ => true
  | .j1 _ => true
  | .j2 _ => true
  | .j3 _ => true
  | .j4 _ => true
  | .j5 _ => true
  | .j6 _ => true
  | .j7 _ => true
  | .j8 _ => true
  | .j9 _ => true
  | .j10 _ => true
  | .j11 _ => true
  | .j12 _ => true
  | .j13 _ => true
  | .j14 _ => true
  | .j15 _ => true
  | .call _ => true
  | .ret => true
  | .pushq _ _ => true
  | .popq _ _ => true

/-- The ranges of R7: `PROG_LEN < 2^64`, `MEM_CAP < 2^64`, and `MEM_INIT` is `MEM_CAP` bytes. -/
def Params.wellFormed (p : Params) : Bool :=
  p.prog.length < 2 ^ 64 && p.memCap < 2 ^ 64 && p.memInit.length == p.memCap

end Sys2Proof
end

