-- ==== Sys2Proof/Certificates/Slice0/Obligations.lean ====
section
/-! DEFINITION. The statements for the provers. Each docstring names the rule of spec/ it formalises; where a clause rests
on a decision that the spec marks as its own (D<n>), the docstring names it. -/

open Sys2Proof Sys2Proof.Machine

-- Encoding.

/-- Decoding the encoding of a well-formed instruction gives it back, whatever bytes follow, with the length of its
encoding (R53, R66, R68). The byte values rest on D1, the nibble written for `irmovq` on D6. -/
def Obligations.DecodeEncodeRoundTrip : Prop :=
  ∀ (i : Instr) (rest : List Byte), i.wellFormed = true →
    decode (encode i ++ rest) = .ok (i, (encode i).length)

/-- A decoded instruction is well formed and its encoding is the bytes it was decoded from, bit for bit but for the nibble
that `irmovq` ignores (R53, R58, R59, R68; D6). So the decoder drops no other bit. -/
def Obligations.DecodedBytesReencode : Prop :=
  ∀ (bs : List Byte) (i : Instr) (n : Nat), decode bs = .ok (i, n) →
    i.wellFormed = true ∧ (encode i).length = n ∧ n ≤ bs.length ∧
    ∀ k, k < n →
      (encode i)[k]? = bs[k]? ∨
      (k = 1 ∧ (∃ v rB, i = .irmovq v rB) ∧
        ∃ b b', (encode i)[k]? = some b ∧ bs[k]? = some b' ∧ b.extractLsb' 0 4 = b'.extractLsb' 0 4)

/-- The classification of the first byte: 45 values recognized with the lengths of the table of R64, every other value
Code, and too few bytes EndOfInput (R53, R64). The strict reading of the low nibble is D3 and D4 (log 16). -/
def Obligations.FirstByteClassification : Prop :=
  ∀ (b0 : Byte) (rest : List Byte),
    match tableLength b0 with
    | none => decode (b0 :: rest) = .error .code
    | some L =>
      if rest.length + 1 < L then decode (b0 :: rest) = .error .endOfInput
      else ∃ i, decode (b0 :: rest) = .ok (i, L)

/-- The length of an instruction is a function of the high nibble of its first byte alone (R65). -/
def Obligations.LengthFixedByFamilyNibble : Prop :=
  ∀ (b0 b0' : Byte) (rest rest' : List Byte) (i i' : Instr) (n n' : Nat),
    b0.extractLsb' 4 4 = b0'.extractLsb' 4 4 →
    decode (b0 :: rest) = .ok (i, n) → decode (b0' :: rest') = .ok (i', n') →
    n = n' ∧ (n = 1 ∨ n = 2 ∨ n = 9 ∨ n = 10)

/-- What is decoded depends on the instruction's own bytes alone: the bytes after them may be anything or absent (R51,
R53). -/
def Obligations.DecodeReadsOnlyItsOwnBytes : Prop :=
  ∀ (bs rest : List Byte) (i : Instr) (n : Nat), decode bs = .ok (i, n) →
    decode (bs.take n ++ rest) = .ok (i, n)

/-- A few of the words written out from the spec's encodings (R66, 95 sections 1.4, 2 and 3) decode to the instructions
they stand for: a sanity statement. -/
def Obligations.WrittenWordsDecode : Prop :=
  decode [0x20, 0x03] = .ok (.rrmovq 0 3, 2) ∧
  decode [0x30, 0xF0, 0x78, 0x56, 0x34, 0x12, 0, 0, 0, 0] = .ok (.irmovq 0x12345678 0, 10) ∧
  decode [0x40, 0x63, 0xF8, 0xFF, 0xFF, 0xFF, 0xFF, 0xFF, 0xFF, 0xFF] = .ok (.rmmovq 6 ⟨3, -8⟩, 10) ∧
  decode [0x50, 0x7F, 0x1B, 0, 0, 0, 0, 0, 0, 0] = .ok (.mrmovq ⟨15, 27⟩ 7, 10) ∧
  decode [0x61, 0x10] = .ok (.subq 1 0, 2) ∧
  decode [0x70, 0, 0, 0, 0, 0, 0, 0, 1] = .ok (.jmp 0x0100000000000000, 9) ∧
  decode [0xA0, 0x3F] = .ok (.pushq 3 15, 2)

-- The step.

/-- A step runs the decoded instruction, in the state whose `pc` the decoder has advanced past it (R17, R53, R90): when the
bytes at `pc` decode to `i`, and so in particular when they are the encoding of a well-formed `i`. -/
def Obligations.StepRunsDecodedInstruction : Prop :=
  (∀ (s : State) (i : Instr) (n : Nat), s.runState = .running → s.pc.toNat < s.prog.length →
    decode (s.prog.drop s.pc.toNat) = .ok (i, n) →
    step s = exec i { s with pc := s.pc + BitVec.ofNat 64 n }) ∧
  (∀ (s : State) (i : Instr), i.wellFormed = true → RunsBytes s (encode i) →
    step s = exec i { s with pc := s.pc + BitVec.ofNat 64 (encode i).length })

/-- `Code`: a step ends in `Failed(Code)` exactly when the byte at `pc` is not one of the 45 recognized values; `pc` is left
at the offset of that byte and nothing is recorded or changed but the run state (R95). -/
def Obligations.UnrecognizedByteFailsWithCode : Prop :=
  ∀ (s : State), s.runState = .running →
    ((∃ t, step s = .next t ∧ t.runState = .failed .code) ↔
      ∃ b0, s.prog[s.pc.toNat]? = some b0 ∧ tableLength b0 = none) ∧
    (∀ b0, s.prog[s.pc.toNat]? = some b0 → tableLength b0 = none →
      step s = .next { s with runState := .failed .code })

/-- `EndOfInput`: a recognized first byte with `pc + L > PROG_LEN`, or a failing loop test, ends the run successfully with
`pc` and everything else but the run state unchanged (R96). -/
def Obligations.TruncatedOrPastTheEndEndsRun : Prop :=
  ∀ (s : State), s.runState = .running →
    ((∃ b0 L, s.prog[s.pc.toNat]? = some b0 ∧ tableLength b0 = some L ∧ s.prog.length < s.pc.toNat + L) ∨
      s.prog.length ≤ s.pc.toNat) →
    step s = .next { s with runState := .endOfInput } ∧ State.succeeded { s with runState := .endOfInput }

/-- While a machine is Running every step answers a next state: no fault and no refusal, whatever the bytes at `pc` and
the operands (R90). -/
def Obligations.RunningMachineAlwaysSteps : Prop :=
  ∀ (s : State), s.runState = .running → ∃ t, step s = .next t

/-- The three terminal states are absorbing: a machine in one has no step, and running it on changes nothing (R101). That
the missing step is answered by a fault is the model's choice (log 7). -/
def Obligations.EndedMachineIsAbsorbing : Prop :=
  ∀ (s : State), s.runState ≠ .running → step s = .fault .terminated ∧ ∀ n, runFor n s = s

/-- Taking a condition writes the run state (and failure kind) that the table of R91 gives it and changes nothing else, and
the host is told what that table says (R91, R100, R103). -/
def Obligations.TakingAConditionWritesRunStateOnly : Prop :=
  ∀ (s : State),
    takeCondition .register s = { s with runState := .failed .register } ∧
    takeCondition .memory s = { s with runState := .failed .memory } ∧
    takeCondition .code s = { s with runState := .failed .code } ∧
    takeCondition .unimplemented s = { s with runState := .failed .unimplemented } ∧
    takeCondition .halt s = { s with runState := .halted } ∧
    takeCondition .endOfInput s = { s with runState := .endOfInput } ∧
    (∀ k, hostResult (takeCondition k s).runState =
      match k with
      | .register => some (.failure .register)
      | .memory => some (.failure .memory)
      | .code => some (.failure .code)
      | .unimplemented => some (.failure .unimplemented)
      | .halt => some .success
      | .endOfInput => some .success)

-- The instructions. Each statement has the step that a machine takes on the instruction's bytes, then what `exec` does.

/-- `halt` (R70): one byte `00`; the run ends in Halted, a success for the host; nothing else changes but the decoder's
advance of `pc`. -/
def Obligations.HaltEndsTheRunSuccessfully : Prop :=
  (∀ (s : State), RunsBytes s [0x00] → step s = exec .halt { s with pc := s.pc + 1 }) ∧
  (∀ (s : State), exec .halt s = .next { s with runState := .halted } ∧
    State.succeeded { s with runState := .halted })

/-- `nop` (R71): one byte `10`; no state change but the decoder's advance of `pc`. -/
def Obligations.NopChangesNothing : Prop :=
  (∀ (s : State), RunsBytes s [0x10] → step s = exec .nop { s with pc := s.pc + 1 }) ∧
  (∀ (s : State), exec .nop s = .next s)

/-- `rrmovq rA, rB` (R72): bytes `20 AB`; the whole pattern of `x[rA]` goes to `x[rB]` and to nothing else; Register when
either id is 15, with no register changed. -/
def Obligations.RrmovqCopiesRegister : Prop :=
  (∀ (s : State) (b1 : Byte), RunsBytes s [0x20, b1] →
    step s = exec (.rrmovq (b1.extractLsb' 4 4) (b1.extractLsb' 0 4)) { s with pc := s.pc + 2 }) ∧
  (∀ (rA rB : RegId) (s : State),
    if rA = 15 ∨ rB = 15 then exec (.rrmovq rA rB) s = .next { s with runState := .failed .register }
    else ∃ t, exec (.rrmovq rA rB) s = .next t ∧ OnlyRegister rB (s.x rA) s t)

/-- `cmov.1` to `cmov.15` (R73, D5, D14): bytes `2n AB`; decoded, then Unimplemented whatever the operands are, 15
included; no register or byte changes. -/
def Obligations.ReservedMovesFailUnimplemented : Prop :=
  ∀ (s : State) (b1 : Byte),
    ∀ p ∈ ([(0x21, .cmov1), (0x22, .cmov2), (0x23, .cmov3), (0x24, .cmov4), (0x25, .cmov5), (0x26, .cmov6),
        (0x27, .cmov7), (0x28, .cmov8), (0x29, .cmov9), (0x2A, .cmov10), (0x2B, .cmov11), (0x2C, .cmov12),
        (0x2D, .cmov13), (0x2E, .cmov14), (0x2F, .cmov15)] : List (Byte × (RegId → RegId → Instr))),
      (RunsBytes s [p.1, b1] →
        step s = exec (p.2 (b1.extractLsb' 4 4) (b1.extractLsb' 0 4)) { s with pc := s.pc + 2 }) ∧
      ∀ (rA rB : RegId) (u : State), exec (p.2 rA rB) u = .next { u with runState := .failed .unimplemented }

/-- `irmovq V, rB` (R74; D6 for the ignored nibble): bytes `30 ?B` and `V` little-endian; `x[rB]` becomes `V` and nothing
else changes, whatever the high nibble; Register when `rB` is 15. -/
def Obligations.IrmovqLoadsImmediate : Prop :=
  (∀ (s : State) (b1 v0 v1 v2 v3 v4 v5 v6 v7 : Byte), RunsBytes s [0x30, b1, v0, v1, v2, v3, v4, v5, v6, v7] →
    step s = exec (.irmovq (LE8 v0 v1 v2 v3 v4 v5 v6 v7) (b1.extractLsb' 0 4)) { s with pc := s.pc + 10 }) ∧
  (∀ (v : Word) (rB : RegId) (s : State),
    if rB = 15 then exec (.irmovq v rB) s = .next { s with runState := .failed .register }
    else ∃ t, exec (.irmovq v rB) s = .next t ∧ OnlyRegister rB v s t)

/-- `rmmovq rA, D(rB)` (R75, R77; D14 for Register before Memory): bytes `40 AB` and `D` little-endian; the eight bytes from
the resolved address become those of `x[rA]`, least significant first, and nothing else changes; Register when `rA` is
15, else Memory when the access is out of bounds, with no byte changed. That a byte stored reads back needs the
canonical form of the memory list, which `Obligations.StepKeepsInvariant` keeps. -/
def Obligations.RmmovqStoresEightBytes : Prop :=
  (∀ (s : State) (b1 d0 d1 d2 d3 d4 d5 d6 d7 : Byte), RunsBytes s [0x40, b1, d0, d1, d2, d3, d4, d5, d6, d7] →
    step s = exec (.rmmovq (b1.extractLsb' 4 4) ⟨b1.extractLsb' 0 4, (LE8 d0 d1 d2 d3 d4 d5 d6 d7).toInt⟩)
      { s with pc := s.pc + 10 }) ∧
  (∀ (rA : RegId) (p : Pointer) (s : State),
    if rA = 15 then exec (.rmmovq rA p) s = .next { s with runState := .failed .register }
    else if s.memCap < (resolve s p).toNat + 8 then exec (.rmmovq rA p) s = .next { s with runState := .failed .memory }
    else ∃ t, exec (.rmmovq rA p) s = .next t ∧ OnlyBytes (resolve s p).toNat 8 s t ∧
      (s.mem.wf = true → ∀ k, k < 8 → t.byteAt ((resolve s p).toNat + k) = (s.x rA).extractLsb' (8 * k) 8))

/-- `mrmovq D(rB), rA` (R76, R77; D7 for the nibble roles, D14 for Memory before Register): bytes `50 AB` and `D`
little-endian; `x[rA]` becomes the little-endian value of the eight bytes at the address resolved before the write, and
nothing else changes; Memory when the access is out of bounds, else Register when `rA` is 15. -/
def Obligations.MrmovqLoadsEightBytes : Prop :=
  (∀ (s : State) (b1 d0 d1 d2 d3 d4 d5 d6 d7 : Byte), RunsBytes s [0x50, b1, d0, d1, d2, d3, d4, d5, d6, d7] →
    step s = exec (.mrmovq ⟨b1.extractLsb' 0 4, (LE8 d0 d1 d2 d3 d4 d5 d6 d7).toInt⟩ (b1.extractLsb' 4 4))
      { s with pc := s.pc + 10 }) ∧
  (∀ (p : Pointer) (rA : RegId) (s : State),
    if s.memCap < (resolve s p).toNat + 8 then exec (.mrmovq p rA) s = .next { s with runState := .failed .memory }
    else if rA = 15 then exec (.mrmovq p rA) s = .next { s with runState := .failed .register }
    else ∃ t, exec (.mrmovq p rA) s = .next t ∧
      OnlyRegister rA
        (LE8 (s.byteAt (resolve s p).toNat) (s.byteAt ((resolve s p).toNat + 1)) (s.byteAt ((resolve s p).toNat + 2))
          (s.byteAt ((resolve s p).toNat + 3)) (s.byteAt ((resolve s p).toNat + 4)) (s.byteAt ((resolve s p).toNat + 5))
          (s.byteAt ((resolve s p).toNat + 6)) (s.byteAt ((resolve s p).toNat + 7))) s t)

/-- `addq rA, rB` (R79): bytes `60 AB`; `x[rB]` becomes `(vB + vA) mod 2^64` and nothing else changes; Register when either id
is 15. -/
def Obligations.AddqAddsModulo64Bits : Prop :=
  (∀ (s : State) (b1 : Byte), RunsBytes s [0x60, b1] →
    step s = exec (.addq (b1.extractLsb' 4 4) (b1.extractLsb' 0 4)) { s with pc := s.pc + 2 }) ∧
  (∀ (rA rB : RegId) (s : State),
    if rA = 15 ∨ rB = 15 then exec (.addq rA rB) s = .next { s with runState := .failed .register }
    else ∃ t v, exec (.addq rA rB) s = .next t ∧ OnlyRegister rB v s t ∧
      v.toNat = ((s.x rB).toNat + (s.x rA).toNat) % 2 ^ 64)

/-- `subq rA, rB` (R80): bytes `61 AB`; `x[rB]` becomes `(vB − vA) mod 2^64`, the destination's value the minuend, and nothing
else changes; Register when either id is 15. -/
def Obligations.SubqSubtractsModulo64Bits : Prop :=
  (∀ (s : State) (b1 : Byte), RunsBytes s [0x61, b1] →
    step s = exec (.subq (b1.extractLsb' 4 4) (b1.extractLsb' 0 4)) { s with pc := s.pc + 2 }) ∧
  (∀ (rA rB : RegId) (s : State),
    if rA = 15 ∨ rB = 15 then exec (.subq rA rB) s = .next { s with runState := .failed .register }
    else ∃ t v, exec (.subq rA rB) s = .next t ∧ OnlyRegister rB v s t ∧
      (v.toNat : Int) = (((s.x rB).toNat : Int) - ((s.x rA).toNat : Int)) % 2 ^ 64)

/-- `andq rA, rB` (R81): bytes `62 AB`; bit by bit AND into `x[rB]`, nothing else changed; Register when either id is 15. -/
def Obligations.AndqIsBitwise : Prop :=
  (∀ (s : State) (b1 : Byte), RunsBytes s [0x62, b1] →
    step s = exec (.andq (b1.extractLsb' 4 4) (b1.extractLsb' 0 4)) { s with pc := s.pc + 2 }) ∧
  (∀ (rA rB : RegId) (s : State),
    if rA = 15 ∨ rB = 15 then exec (.andq rA rB) s = .next { s with runState := .failed .register }
    else ∃ t v, exec (.andq rA rB) s = .next t ∧ OnlyRegister rB v s t ∧
      ∀ k, k < 64 → (v.getLsbD k = true ↔ (s.x rB).getLsbD k = true ∧ (s.x rA).getLsbD k = true))

/-- `xorq rA, rB` (R82): bytes `63 AB`; bit by bit exclusive OR into `x[rB]`, nothing else changed; Register when either id is
15. -/
def Obligations.XorqIsBitwise : Prop :=
  (∀ (s : State) (b1 : Byte), RunsBytes s [0x63, b1] →
    step s = exec (.xorq (b1.extractLsb' 4 4) (b1.extractLsb' 0 4)) { s with pc := s.pc + 2 }) ∧
  (∀ (rA rB : RegId) (s : State),
    if rA = 15 ∨ rB = 15 then exec (.xorq rA rB) s = .next { s with runState := .failed .register }
    else ∃ t v, exec (.xorq rA rB) s = .next t ∧ OnlyRegister rB v s t ∧
      ∀ k, k < 64 → (v.getLsbD k = true ↔ (s.x rB).getLsbD k ≠ (s.x rA).getLsbD k))

/-- `jmp Dest` (R83): byte `70` and `Dest` little-endian; `pc` becomes `Dest`, unchecked, and nothing else changes; where `Dest`
is at or beyond PROG_LEN the next step ends the run successfully in EndOfInput with `pc = Dest`. -/
def Obligations.JmpLoadsProgramCounter : Prop :=
  (∀ (s : State) (t0 t1 t2 t3 t4 t5 t6 t7 : Byte), RunsBytes s [0x70, t0, t1, t2, t3, t4, t5, t6, t7] →
    step s = exec (.jmp (LE8 t0 t1 t2 t3 t4 t5 t6 t7)) { s with pc := s.pc + 9 }) ∧
  (∀ (dest : Word) (s : State), exec (.jmp dest) s = .next { s with pc := dest } ∧
    (s.runState = .running → s.prog.length ≤ dest.toNat →
      step { s with pc := dest } = .next { s with pc := dest, runState := .endOfInput }))

/-- `j.1` to `j.15` (R84, D5): byte `7n` and eight more; decoded, then Unimplemented; `pc` stays past the instruction and no
register or byte changes. -/
def Obligations.ReservedJumpsFailUnimplemented : Prop :=
  ∀ (s : State) (t0 t1 t2 t3 t4 t5 t6 t7 : Byte),
    ∀ p ∈ ([(0x71, .j1), (0x72, .j2), (0x73, .j3), (0x74, .j4), (0x75, .j5), (0x76, .j6), (0x77, .j7), (0x78, .j8),
        (0x79, .j9), (0x7A, .j10), (0x7B, .j11), (0x7C, .j12), (0x7D, .j13), (0x7E, .j14), (0x7F, .j15)] :
        List (Byte × (Word → Instr))),
      (RunsBytes s [p.1, t0, t1, t2, t3, t4, t5, t6, t7] →
        step s = exec (p.2 (LE8 t0 t1 t2 t3 t4 t5 t6 t7)) { s with pc := s.pc + 9 }) ∧
      ∀ (dest : Word) (u : State), exec (p.2 dest) u = .next { u with runState := .failed .unimplemented }

/-- `call`, `ret`, `pushq`, `popq` (R85 to R88): bytes `80` and eight more, `90`, `A0` and one more, `B0` and one more; decoded,
then no operation: no jump, nothing pushed or popped, no operand validated. That the four do nothing is the choice that
93 U2 makes among the source's alternatives and asks a model to mark (DESIGN CHOICE, log 9). A `call` with fewer than nine
bytes left ends the run in EndOfInput (R85). -/
def Obligations.CallRetPushPopDoNothing : Prop :=
  (∀ (s : State) (t0 t1 t2 t3 t4 t5 t6 t7 : Byte), RunsBytes s [0x80, t0, t1, t2, t3, t4, t5, t6, t7] →
    step s = exec (.call (LE8 t0 t1 t2 t3 t4 t5 t6 t7)) { s with pc := s.pc + 9 }) ∧
  (∀ (s : State), s.runState = .running → s.prog[s.pc.toNat]? = some 0x80 → s.prog.length < s.pc.toNat + 9 →
    step s = .next { s with runState := .endOfInput }) ∧
  (∀ (s : State), RunsBytes s [0x90] → step s = exec .ret { s with pc := s.pc + 1 }) ∧
  (∀ (s : State) (b1 : Byte), RunsBytes s [0xA0, b1] →
    step s = exec (.pushq (b1.extractLsb' 4 4) (b1.extractLsb' 0 4)) { s with pc := s.pc + 2 }) ∧
  (∀ (s : State) (b1 : Byte), RunsBytes s [0xB0, b1] →
    step s = exec (.popq (b1.extractLsb' 4 4) (b1.extractLsb' 0 4)) { s with pc := s.pc + 2 }) ∧
  (∀ (s : State) (dest : Word) (rA rB : RegId), exec (.call dest) s = .next s ∧ exec .ret s = .next s ∧
    exec (.pushq rA rB) s = .next s ∧ exec (.popq rA rB) s = .next s)

-- Whole-machine rules.

/-- A step that ends in Failed has changed no register, no byte of memory, not the cursor and no parameter; the only trace
of it beside the run state is the decoder's advance of `pc`, which a Code failure does not make (R92, R100; the spec
marks the sentence of R92 as derived). -/
def Obligations.FailingStepLeavesNoTraceButPc : Prop :=
  ∀ (s t : State) (k : FailKind), step s = .next t → t.runState = .failed k →
    ∃ n, t = { s with pc := s.pc + BitVec.ofNat 64 n, runState := .failed k } ∧
      (k = .code → n = 0) ∧
      (k ≠ .code → ∃ i, decode (s.prog.drop s.pc.toNat) = .ok (i, n))

/-- What one step touches, for every instruction (R15, R20): no register but the destination the table of R15 gives, `x[15]`
never, and no byte of memory but the eight that `rmmovq` stores at its resolved address. -/
def Obligations.StepFootprint : Prop :=
  ∀ (s t : State) (i : Instr) (n : Nat), s.pc.toNat < s.prog.length →
    decode (s.prog.drop s.pc.toNat) = .ok (i, n) → step s = .next t →
    (∀ r, destination i ≠ some r ∨ r = 15 → t.x r = s.x r) ∧
    (match i with
      | .rmmovq _ p => SameBytesOutside (resolve s p).toNat 8 s t
      | _ => SameBytes s t)

/-- `pc` is written by the decoder, which adds the length of the decoded instruction, and by `jmp`, which loads its target,
and by nothing else; a step that decodes nothing leaves it (R16, R17; the last clause is D9, log 14). -/
def Obligations.PcWrittenByDecoderAndJmpOnly : Prop :=
  ∀ (s t : State), step s = .next t →
    (∀ i n, s.pc.toNat < s.prog.length → decode (s.prog.drop s.pc.toNat) = .ok (i, n) →
      (∀ dest, i = .jmp dest → t.pc = dest) ∧
      ((∀ dest, i ≠ .jmp dest) → t.pc = s.pc + BitVec.ofNat 64 n)) ∧
    ((s.prog.length ≤ s.pc.toNat ∨ ∃ e, decode (s.prog.drop s.pc.toNat) = .error e) → t.pc = s.pc)

/-- The ways a run ends (R117): Halted by a `halt`, with `pc` after it; EndOfInput past the end of the stream or at a truncated
instruction, with `pc` unchanged; Failed(Code) with `pc` at the bad byte; the other failures with `pc` after the failing
instruction, and never by `jmp`. -/
def Obligations.WaysARunEnds : Prop :=
  ∀ (s t : State), step s = .next t → t.runState ≠ .running →
    (t.runState = .halted ∧ decode (s.prog.drop s.pc.toNat) = .ok (.halt, 1) ∧ t.pc = s.pc + 1) ∨
    (t.runState = .endOfInput ∧ t.pc = s.pc ∧
      (s.prog.length ≤ s.pc.toNat ∨ decode (s.prog.drop s.pc.toNat) = .error .endOfInput)) ∨
    (t.runState = .failed .code ∧ t.pc = s.pc ∧ decode (s.prog.drop s.pc.toNat) = .error .code) ∨
    (∃ k i n, t.runState = .failed k ∧ k ≠ .code ∧ decode (s.prog.drop s.pc.toNat) = .ok (i, n) ∧
      (∀ dest, i ≠ .jmp dest) ∧ t.pc = s.pc + BitVec.ofNat 64 n)

/-- Every step keeps the invariant (R7, R19, R28): the cursor in [0, MEM_CAP], the parameters in range, the memory list in its
canonical form with no address at or above MEM_CAP. -/
def Obligations.StepKeepsInvariant : Prop :=
  ∀ (s t : State), s.Inv → step s = .next t → t.Inv

/-- Construction from parameters in the ranges of R7 establishes the invariant (R7, R27, R110). -/
def Obligations.ConstructionEstablishesInvariant : Prop :=
  ∀ (p : Params), p.wellFormed = true → (State.construct p).Inv

/-- The invariant holds at reset. The parameters reset is constructed from are the model's choice (log 1 to 4). -/
def Obligations.ResetSatisfiesInvariant : Prop :=
  State.reset.Inv ∧ State.reset.runState = .running ∧ State.reset.sp = State.reset.memCap ∧
    State.reset.pc = 0 ∧ ∀ r, State.reset.x r = 0

/-- Machine construction (R110): the registers are REG_INIT, `pc` is PC_INIT, every byte of `M` is that of MEM_INIT, `sp` is
MEM_CAP, the machine is Running, and the defaults of PC_INIT and REG_INIT are zero. -/
def Obligations.ConstructionGivesTheHostsParameters : Prop :=
  (∀ (p : Params), p.wellFormed = true →
    (∀ i : Fin 16, (State.construct p).x (BitVec.ofFin i) = p.regInit[i]) ∧
    (State.construct p).pc = p.pcInit ∧
    (∀ a, a < p.memCap → p.memInit[a]? = some ((State.construct p).byteAt a)) ∧
    (State.construct p).sp = p.memCap ∧
    (State.construct p).runState = .running ∧
    (State.construct p).prog = p.prog ∧ (State.construct p).memCap = p.memCap) ∧
  (∀ (prog memInit : List Byte) (cap : Nat),
    (State.construct { prog := prog, memCap := cap, memInit := memInit }).pc = 0 ∧
    ∀ r, (State.construct { prog := prog, memCap := cap, memInit := memInit }).x r = 0)

/-- No step changes PROG, MEM_CAP or the stack cursor (R10, R19, R25, R48; the sentence of R19 on runs is marked derived). -/
def Obligations.StepKeepsParametersAndCursor : Prop :=
  ∀ (s t : State), step s = .next t → SameFixed s t

/-- The slot `x[15]` and the stack cursor cannot be observed: two machines that differ in them alone step alike, to machines
that again differ in them alone, each keeping its own (R11, R19, R49; R11 marks its sentence as derived). -/
def Obligations.HiddenSlotAndCursorUnobservable : Prop :=
  ∀ (s s' : State), EqualButHidden s s' →
    (∀ t, step s = .next t → ∃ t', step s' = .next t' ∧ EqualButHidden t t' ∧ t'.sp = s'.sp ∧ t'.x 15 = s'.x 15) ∧
    (∀ f, step s = .fault f → step s' = .fault f)

/-- A run that decodes no `jmp` ends, within PROG_LEN + 1 steps: after PROG_LEN steps it has ended or the loop test fails, and
after one more it has ended (R107 and 95 section 4, item 5; the spec marks both as derived). A byte `70` inside an operand, or
one that is never reached as a first byte, does no harm. -/
def Obligations.RunWithoutJmpEnds : Prop :=
  ∀ (s : State), s.prog.length < 2 ^ 64 → (∀ k, k ≤ s.prog.length → ¬ DecodesJmp (runFor k s)) →
    ((runFor s.prog.length s).runState = .running → s.prog.length ≤ (runFor s.prog.length s).pc.toNat) ∧
    (runFor (s.prog.length + 1) s).runState ≠ .running

/-- A run need not end: a `jmp` to its own offset keeps the machine Running for ever, in the very same state (R107). -/
def Obligations.JmpToItselfNeverEnds : Prop :=
  ∀ (s : State) (t0 t1 t2 t3 t4 t5 t6 t7 : Byte), RunsBytes s [0x70, t0, t1, t2, t3, t4, t5, t6, t7] →
    LE8 t0 t1 t2 t3 t4 t5 t6 t7 = s.pc →
    step s = .next s ∧ ∀ n, runFor n s = s ∧ (runFor n s).runState = .running

-- The register file, the memory/stack controller and the pointer unit.

/-- Validated read and write (R13, R14): for ids 0 to 14 a write replaces that slot alone and reads back; id 15 raises
Register on either, so that nothing is written. -/
def Obligations.RegisterFileValidatedAccess : Prop :=
  ∀ (s : State) (i : RegId) (v : Word),
    if i = 15 then regRead s i = .error .register ∧ regWrite s i v = .error .register
    else regRead s i = .ok (s.x i) ∧
      ∃ t, regWrite s i v = .ok t ∧ OnlyRegister i v s t ∧ regRead t i = .ok v

/-- `MemRead(addr, n)` (R33; the bounds check on unbounded integers is D10): Memory exactly when `addr + n > MEM_CAP`, else the
little-endian sum of the `n` bytes. -/
def Obligations.MemReadIsLittleEndian : Prop :=
  ∀ (s : State) (addr : Word) (n : Nat),
    if s.memCap < addr.toNat + n then memRead s addr n = .error .memory
    else ∃ v, memRead s addr n = .ok v ∧
      v.toNat = ∑ k ∈ Finset.range n, (s.byteAt (addr.toNat + k)).toNat * 2 ^ (8 * k)

/-- `MemWrite(addr, n, v)` (R34; D10 as above): Memory exactly when `addr + n > MEM_CAP`, with nothing written; else byte `k` of the
run becomes `v[8k+7 : 8k]`, and bytes outside it, registers and `sp` are unchanged. -/
def Obligations.MemWriteIsLittleEndian : Prop :=
  ∀ (s : State) (addr : Word) (n : Nat) (v : BitVec (8 * n)), s.mem.wf = true →
    if s.memCap < addr.toNat + n then memWrite s addr n v = .error .memory
    else ∃ t, memWrite s addr n v = .ok t ∧ OnlyBytes addr.toNat n s t ∧ t.mem.wf = true ∧
      ∀ k, k < n → t.byteAt (addr.toNat + k) = v.extractLsb' (8 * k) 8

/-- A load returns what the most recent store put there (R46): `MemRead` after `MemWrite` at the same address and width gives the
value written; at bytes that do not overlap it gives what it gave before. -/
def Obligations.LoadReturnsMostRecentStore : Prop :=
  ∀ (s t : State) (addr : Word) (n : Nat) (v : BitVec (8 * n)), s.mem.wf = true → memWrite s addr n v = .ok t →
    memRead t addr n = .ok v ∧
    ∀ (addr' : Word) (m : Nat), addr'.toNat + m ≤ addr.toNat ∨ addr.toNat + n ≤ addr'.toNat →
      memRead t addr' m = memRead s addr' m

/-- `Push` and `Pop` (R36, R38, 95 section 1.3; the place of the pushed byte is marked derived in R36): Push raises Memory at a
cursor of 0, else moves it down one and stores there alone; Pop raises Memory at MEM_CAP, else returns the byte at the
cursor and moves it up one; and Pop after Push gives the byte back, with the cursor where it was. Push writes the cursor and
that byte alone, Pop the cursor alone: the registers, `pc`, the run state, PROG and MEM_CAP are as before. -/
def Obligations.PushAndPopAreInverse : Prop :=
  ∀ (s : State) (b : Byte), s.Inv →
    (if s.sp = 0 then push s b = .error .memory
      else ∃ t, push s b = .ok t ∧ t.sp = s.sp - 1 ∧ t.byteAt t.sp = b ∧ SameBytesOutside t.sp 1 s t ∧
        t.regs = s.regs ∧ t.pc = s.pc ∧ t.runState = s.runState ∧ t.prog = s.prog ∧ t.memCap = s.memCap ∧
        pop t = .ok (b, { t with sp := s.sp })) ∧
    (if s.sp = s.memCap then pop s = .error .memory
      else pop s = .ok (s.byteAt s.sp, { s with sp := s.sp + 1 }))

/-- `PushN` (R37): no partial write when too little capacity is left; else the cursor moves down by the number of bytes, which
land in one of the two orders R37 leaves open, and no other byte, no register, not `pc`, the run state, PROG or MEM_CAP
changes. `pushN` is in one of those orders; which,
the model does not say (log 12). -/
def Obligations.PushNIsAtomicInEitherOrder : Prop :=
  (∀ (o : PushNOrder) (s : State) (bs : List Byte), s.mem.wf = true →
    if s.sp < bs.length then pushNWith o s bs = .error .memory
    else ∃ t, pushNWith o s bs = .ok t ∧ t.sp = s.sp - bs.length ∧ SameBytesOutside t.sp bs.length s t ∧
      t.regs = s.regs ∧ t.pc = s.pc ∧ t.runState = s.runState ∧ t.prog = s.prog ∧ t.memCap = s.memCap ∧
      ∀ k, k < bs.length →
        (match o with
          | .sequential => bs[k]? = some (t.byteAt (s.sp - 1 - k))
          | .block => bs[k]? = some (t.byteAt (t.sp + k)))) ∧
  (∀ (s : State) (bs : List Byte), pushN s bs = pushNWith .sequential s bs ∨ pushN s bs = pushNWith .block s bs)

/-- Occupancy (R28, R39; the two definitions are marked derived): `unused() + used() = MEM_CAP` wherever the invariant holds, and
the stack primitives keep the invariant and change the occupancy by the bytes they move. -/
def Obligations.StackOccupancy : Prop :=
  ∀ (s : State), s.Inv →
    unused s + used s = s.memCap ∧
    (∀ b t, push s b = .ok t → t.Inv ∧ used t = used s + 1 ∧ unused t + used t = s.memCap) ∧
    (∀ bs t, pushN s bs = .ok t → t.Inv ∧ used t = used s + bs.length ∧ unused t + used t = s.memCap) ∧
    (∀ b t, pop s = .ok (b, t) → t.Inv ∧ used s = used t + 1 ∧ unused t + used t = s.memCap)

/-- Plain byte access (R35, D15): in range it reads and writes one byte, out of range it raises Memory. -/
def Obligations.PlainByteAccess : Prop :=
  ∀ (s : State) (a : Word) (b : Byte), s.mem.wf = true →
    if s.memCap ≤ a.toNat then byteRead s a = .error .memory ∧ byteWrite s a b = .error .memory
    else byteRead s a = .ok (s.byteAt a.toNat) ∧
      ∃ t, byteWrite s a b = .ok t ∧ OnlyBytes a.toNat 1 s t ∧ byteRead t a = .ok b

/-- `Resolve(base, off)` (R40): base register, 0 for the sentinel, plus the signed offset, modulo 2^64; it reads nothing else and
never raises. -/
def Obligations.ResolveAddsSignedOffset : Prop :=
  ∀ (s : State) (p : Pointer), p.wellFormed = true →
    ((resolve s p).toNat : Int) = ((if p.base = 15 then 0 else ((s.x p.base).toNat : Int)) + p.off) % 2 ^ 64

/-- Pointer plus and minus a constant (R41, D17): the same base, an offset in i64, and an address moved by the constant modulo
2^64. -/
def Obligations.PointerPlusConstant : Prop :=
  ∀ (s : State) (p : Pointer) (k : Int),
    (pointerAdd p k).base = p.base ∧ (pointerAdd p k).wellFormed = true ∧
    (pointerSub p k).base = p.base ∧ (pointerSub p k).wellFormed = true ∧
    ((resolve s (pointerAdd p k)).toNat : Int) = ((resolve s p).toNat + k) % 2 ^ 64 ∧
    ((resolve s (pointerSub p k)).toNat : Int) = ((resolve s p).toNat - k) % 2 ^ 64
end

