-- ==== Sys2Proof/Laws/Bytes.lean ====
section
/-! SUPPORT. Nibbles of a packed byte, and little-endian assembly and its inverse. -/

namespace Sys2Proof

@[simp] theorem hiNibble_packByte (hi lo : Nibble) : hiNibble (packByte hi lo) = hi := by
  revert hi lo; decide

@[simp] theorem loNibble_packByte (hi lo : Nibble) : loNibble (packByte hi lo) = lo := by
  revert hi lo; decide

@[simp] theorem packByte_nibbles (b : Byte) : packByte (hiNibble b) (loNibble b) = b := by
  revert b; decide

@[simp] theorem length_leBytes (n v : Nat) : (leBytes n v).length = n := by
  induction n generalizing v with
  | zero => rfl
  | succ n ih => simp [leBytes, ih]

theorem leNat_lt (bs : List Byte) : leNat bs < 256 ^ bs.length := by
  induction bs with
  | nil => simp [leNat]
  | cons b bs ih =>
    have hb : b.toNat < 256 := b.isLt
    simp only [leNat, List.length_cons, pow_succ]
    omega

theorem leNat_leBytes (n v : Nat) : leNat (leBytes n v) = v % 256 ^ n := by
  induction n generalizing v with
  | zero => simp [leBytes, leNat, Nat.mod_one]
  | succ n ih =>
    have key : v % 256 ^ (n + 1) = v % 256 + 256 * (v / 256 % 256 ^ n) := by
      rw [pow_succ, Nat.mul_comm (256 ^ n) 256, Nat.mod_mul]
    simp only [leBytes, leNat, ih, BitVec.toNat_ofNat]
    omega

theorem leBytes_leNat (bs : List Byte) : leBytes bs.length (leNat bs) = bs := by
  induction bs with
  | nil => rfl
  | cons b bs ih =>
    have hb : b.toNat < 256 := b.isLt
    have hdiv : (b.toNat + 256 * leNat bs) / 256 = leNat bs := by omega
    have hmod : BitVec.ofNat 8 (b.toNat + 256 * leNat bs) = b := by
      apply BitVec.eq_of_toNat_eq
      simp only [BitVec.toNat_ofNat]
      omega
    simp only [leNat, List.length_cons, leBytes, hdiv, hmod, ih]

/-- Byte `i` of the little-endian layout is `v[8i+7 : 8i]` (R31). -/
theorem getElem_leBytes (n v i : Nat) (h : i < n) :
    (leBytes n v)[i]'(by simpa using h) = BitVec.ofNat 8 (v / 256 ^ i) := by
  induction n generalizing v i with
  | zero => omega
  | succ n ih =>
    cases i with
    | zero => simp [leBytes]
    | succ i =>
      simp only [leBytes, List.getElem_cons_succ]
      rw [ih (v / 256) i (by omega), Nat.div_div_eq_div_mul, pow_succ, Nat.mul_comm]

/-- Reading a 64-bit pattern as signed and taking its pattern again gives it back (R9). -/
@[simp] theorem bits64_sext64 (v : Word) : bits64 (sext64 v) = v := by
  simp [bits64, sext64]

/-- `sext_64(bits_64(s)) = s` for `s` in i64 (R9). -/
theorem sext64_bits64 (i : Int) (hlo : -2 ^ 63 ≤ i) (hhi : i < 2 ^ 63) : sext64 (bits64 i) = i := by
  simp only [sext64, bits64, BitVec.toInt_ofInt]
  exact Int.bmod_eq_of_le (by norm_num; omega) (by norm_num; omega)

/-- The value of a signed integer's pattern is the integer modulo 2^64 (R9). -/
theorem toNat_bits64 (i : Int) : ((bits64 i).toNat : Int) = i % 2 ^ 64 := by
  simp [bits64, BitVec.toNat_ofInt]
  omega

end Sys2Proof
end

