-- ==== Sys2Proof/Laws/Decode.lean ====
section
/-! SUPPORT. What the decoder can answer, and the parts of the round trip. -/

namespace Sys2Proof

/-- No first byte stands in two rows of the opcode map. -/
theorem opcodeMap_keys_nodup : (opcodeMap.map Prod.fst).Nodup := by decide

/-- A recognized first byte is a row of the opcode map (R64). -/
theorem mem_opcodeMap_of_formatOf {b0 : Byte} {f : Format} (h : formatOf b0 = some f) : (b0, f) ∈ opcodeMap := by
  unfold formatOf at h
  obtain ⟨l, r, hl, -⟩ := List.lookup_eq_some_iff.1 h
  simp [hl]

/-- Everything a successful decode can be (R53). -/
theorem decode_eq_ok_iff {bs : List Byte} {i : Instr} {n : Nat} :
    decode bs = .ok (i, n) ↔ ∃ b0 rest f, bs = b0 :: rest ∧ formatOf b0 = some f ∧ f.length ≤ rest.length + 1 ∧
      i = f.build rest ∧ n = f.length := by
  cases bs with
  | nil => simp [decode]
  | cons b0 rest =>
    cases hf : formatOf b0 with
    | none => simp [decode, hf]
    | some f =>
      simp only [decode, hf]
      split
      · constructor
        · intro h
          cases h
        · rintro ⟨b, r, g, hb, hg, hl, -⟩
          cases hb
          rw [hf] at hg
          cases hg
          omega
      · constructor
        · intro h
          cases h
          exact ⟨b0, rest, f, rfl, hf, by omega, rfl, rfl⟩
        · rintro ⟨b, r, g, hb, hg, hl, hi, hn⟩
          cases hb
          rw [hf] at hg
          cases hg
          rw [hi, hn]

/-- A decode fails with Code exactly on an unrecognized first byte (R53). -/
theorem decode_eq_code_iff {bs : List Byte} :
    decode bs = .error .code ↔ ∃ b0 rest, bs = b0 :: rest ∧ formatOf b0 = none := by
  cases bs with
  | nil => simp [decode]
  | cons b0 rest =>
    cases hf : formatOf b0 with
    | none => simp [decode, hf]
    | some f =>
      simp only [decode, hf]
      constructor
      · intro h
        split at h <;> cases h
      · rintro ⟨b, r, hb, hg⟩
        cases hb
        rw [hf] at hg
        cases hg

/-- An instruction's length is 1, 2, 9 or 10 (R65). -/
theorem Format.length_cases (f : Format) : f.length = 1 ∨ f.length = 2 ∨ f.length = 9 ∨ f.length = 10 := by
  cases f <;> simp [Format.length]

theorem decode_length_bounds {bs : List Byte} {i : Instr} {n : Nat} (h : decode bs = .ok (i, n)) :
    1 ≤ n ∧ n ≤ 10 ∧ n ≤ bs.length := by
  obtain ⟨b0, rest, f, rfl, -, hl, -, rfl⟩ := decode_eq_ok_iff.1 h
  refine ⟨?_, ?_, by simpa using hl⟩ <;> rcases f.length_cases with h | h | h | h <;> omega

@[simp] theorem field8_leBytes (v : Word) (rest : List Byte) : field8 (leBytes 8 v.toNat ++ rest) = v := by
  have htake : (leBytes 8 v.toNat ++ rest).take 8 = leBytes 8 v.toNat := by
    rw [List.take_append_of_le_length (by simp)]
    exact List.take_of_length_le (by simp)
  have hv : v.toNat < 2 ^ 64 := v.isLt
  simp only [field8, htake, leNat_leBytes]
  apply BitVec.eq_of_toNat_eq
  simp only [BitVec.toNat_ofNat]
  omega

/-- The pointer decoded from an encoded displacement is the pointer (R59, R68), for an offset in i64. -/
theorem pointerOf_bits64 (p : Pointer) (hlo : -2 ^ 63 ≤ p.off) (hhi : p.off < 2 ^ 63) :
    pointerOf p.base (bits64 p.off) = p := by
  simp [pointerOf, sext64_bits64 p.off hlo hhi]

-- Decoding what the encoder lays out, one lemma per format: the caller names the row of the opcode map.

theorem decode_cons_of_format {b0 : Byte} {rest : List Byte} {f : Format} (h : formatOf b0 = some f)
    (hl : f.length ≤ rest.length + 1) : decode (b0 :: rest) = .ok (f.build rest, f.length) :=
  decode_eq_ok_iff.2 ⟨b0, rest, f, rfl, h, hl, rfl, rfl⟩

theorem decode_encF1 {icode : Nibble} {i : Instr} (h : formatOf (packByte icode 0) = some (.f1 i)) (rest : List Byte) :
    decode (encF1 icode ++ rest) = .ok (i, (encF1 icode).length) :=
  decode_cons_of_format h (by simp [Format.length])

theorem decode_encF2 {icode ifun : Nibble} {mk : (rA rB : RegId) → Instr}
    (h : formatOf (packByte icode ifun) = some (.f2 mk)) (rA rB : RegId) (rest : List Byte) :
    decode (encF2 icode ifun rA rB ++ rest) = .ok (mk rA rB, (encF2 icode ifun rA rB).length) := by
  have := decode_cons_of_format h (rest := packByte rA rB :: rest) (by simp [Format.length])
  simpa [encF2, Format.build, Format.length, pairByte] using this

theorem decode_encF9 {icode ifun : Nibble} {mk : (field : Word) → Instr}
    (h : formatOf (packByte icode ifun) = some (.f9 mk)) (v : Word) (rest : List Byte) :
    decode (encF9 icode ifun v ++ rest) = .ok (mk v, (encF9 icode ifun v).length) := by
  have := decode_cons_of_format h (rest := leBytes 8 v.toNat ++ rest) (by simp [Format.length])
  simpa [encF9, Format.build, Format.length] using this

theorem decode_encF10 {icode : Nibble} {mk : (rA rB : RegId) → (field : Word) → Instr}
    (h : formatOf (packByte icode 0) = some (.f10 mk)) (rA rB : RegId) (v : Word) (rest : List Byte) :
    decode (encF10 icode rA rB v ++ rest) = .ok (mk rA rB v, (encF10 icode rA rB v).length) := by
  have := decode_cons_of_format h (rest := packByte rA rB :: (leBytes 8 v.toNat ++ rest))
    (by simp [Format.length])
  simpa [encF10, Format.build, Format.length, pairByte] using this

end Sys2Proof
end

