-- ==== Sys2Proof/Laws/Memory.lean ====
section
/-! SUPPORT. Memory: a read after a write, every other place left alone, and the canonical form kept. -/

namespace Sys2Proof.Machine

-- The canonical form, as a chain.

theorem Memory.wfAbove_cons (low : Option Nat) (a : Nat) (b : Byte) (m : Memory) :
    Memory.wfAbove low ((a, b) :: m) = true ↔
      (∀ l, low = some l → l < a) ∧ b ≠ unlistedByte ∧ Memory.wfAbove (some a) m = true := by
  cases low <;> simp [Memory.wfAbove, and_assoc]

theorem Memory.wfAbove_weaken {low low' : Option Nat} {m : Memory}
    (h : ∀ l', low' = some l' → ∃ l, low = some l ∧ l' ≤ l) (hm : Memory.wfAbove low m = true) :
    Memory.wfAbove low' m = true := by
  cases m with
  | nil => rfl
  | cons c m =>
    obtain ⟨a, b⟩ := c
    rw [Memory.wfAbove_cons] at hm ⊢
    refine ⟨fun l' hl' => ?_, hm.2⟩
    obtain ⟨l, hl, hle⟩ := h l' hl'
    exact Nat.lt_of_le_of_lt hle (hm.1 l hl)

theorem Memory.read_of_wfAbove {l : Nat} {m : Memory} (hm : Memory.wfAbove (some l) m = true) {a : Nat}
    (ha : a ≤ l) : m.read a = unlistedByte := by
  induction m generalizing l with
  | nil => rfl
  | cons c m ih =>
    obtain ⟨a', b'⟩ := c
    rw [Memory.wfAbove_cons] at hm
    have hlt := hm.1 l rfl
    simp only [Memory.read]
    rw [if_neg (by omega)]
    exact ih hm.2.2 (by omega)

-- Writing keeps the form.

theorem Memory.wfAbove_write {low : Option Nat} {m : Memory} (hm : Memory.wfAbove low m = true) {a : Nat}
    (ha : ∀ l, low = some l → l < a) (b : Byte) : Memory.wfAbove low (m.write a b) = true := by
  induction m generalizing low with
  | nil =>
    simp only [Memory.write]
    split
    · rfl
    · rename_i hb
      exact (Memory.wfAbove_cons ..).2 ⟨ha, hb, rfl⟩
  | cons c m ih =>
    obtain ⟨a', b'⟩ := c
    have hm' := (Memory.wfAbove_cons ..).1 hm
    simp only [Memory.write]
    split
    · rename_i hlt
      split
      · exact hm
      · rename_i hb
        refine (Memory.wfAbove_cons ..).2 ⟨ha, hb, (Memory.wfAbove_cons ..).2 ⟨?_, hm'.2⟩⟩
        intro l hl
        cases hl
        exact hlt
    · split
      · rename_i heq
        subst heq
        split
        · exact Memory.wfAbove_weaken (fun l' hl' => ⟨a, rfl, Nat.le_of_lt (ha l' hl')⟩) hm'.2.2
        · rename_i hb
          exact (Memory.wfAbove_cons ..).2 ⟨ha, hb, hm'.2.2⟩
      · rename_i hge hne
        refine (Memory.wfAbove_cons ..).2 ⟨hm'.1, hm'.2.1, ih hm'.2.2 ?_⟩
        intro l hl
        cases hl
        omega

/-- Writing a byte keeps the canonical form. -/
theorem Memory.wf_write {m : Memory} (hm : m.wf = true) (a : Nat) (b : Byte) : (m.write a b).wf = true :=
  Memory.wfAbove_write hm (by simp) b

/-- Writing bytes keeps the canonical form. -/
theorem Memory.wf_writeBytes {m : Memory} (hm : m.wf = true) (a : Nat) (bs : List Byte) :
    (m.writeBytes a bs).wf = true := by
  induction bs generalizing m a with
  | nil => exact hm
  | cons b bs ih => exact ih (Memory.wf_write hm a b) (a + 1)

/-- The memory of a construction has the canonical form. -/
theorem Memory.wf_ofBytes (bs : List Byte) : (Memory.ofBytes bs).wf = true :=
  Memory.wf_writeBytes (by rfl) 0 bs

-- Reading after writing.

theorem Memory.read_write_wfAbove {low : Option Nat} {m : Memory} (hm : Memory.wfAbove low m = true) (a : Nat)
    (b : Byte) (a' : Nat) : (m.write a b).read a' = if a' = a then b else m.read a' := by
  induction m generalizing low with
  | nil =>
    simp only [Memory.write]
    split
    · rename_i hb
      subst hb
      simp [Memory.read]
    · simp [Memory.read]
  | cons c m ih =>
    obtain ⟨k, v⟩ := c
    have hm' := (Memory.wfAbove_cons ..).1 hm
    simp only [Memory.write]
    split
    · rename_i hlt
      have hout : Memory.read ((k, v) :: m) a = unlistedByte := by
        simp only [Memory.read]
        rw [if_neg (by omega)]
        exact Memory.read_of_wfAbove hm'.2.2 (by omega)
      split
      · rename_i hb
        subst hb
        split
        · rename_i heq
          subst heq
          exact hout
        · rfl
      · simp only [Memory.read]
    · split
      · rename_i heq
        subst heq
        have hout := Memory.read_of_wfAbove hm'.2.2 (Nat.le_refl a)
        split
        · rename_i hb
          subst hb
          by_cases h : a' = a
          · subst h
            simp [hout]
          · simp [Memory.read, h]
        · by_cases h : a' = a <;> simp [Memory.read, h]
      · rename_i hge hne
        simp only [Memory.read]
        rw [ih hm'.2.2]
        by_cases h : a' = a
        · subst h
          simp [hne]
        · simp [h]

/-- A read after a write to the same place gives the value written. -/
theorem Memory.read_write_same {m : Memory} (hm : m.wf = true) (a : Nat) (b : Byte) : (m.write a b).read a = b := by
  simp [Memory.read_write_wfAbove hm]

/-- A write leaves every other place alone. This one needs no canonical form. -/
theorem Memory.read_write_other (m : Memory) {a a' : Nat} (h : a' ≠ a) (b : Byte) :
    (m.write a b).read a' = m.read a' := by
  induction m with
  | nil =>
    simp only [Memory.write]
    split <;> simp [Memory.read, h]
  | cons c m ih =>
    obtain ⟨k, v⟩ := c
    simp only [Memory.write]
    split
    · split <;> simp [Memory.read, h]
    · split
      · rename_i heq
        subst heq
        split <;> simp [Memory.read, h]
      · simp [Memory.read, ih]

/-- Bytes outside a run of writes are left alone. -/
theorem Memory.read_writeBytes_outside (m : Memory) {a : Nat} {bs : List Byte} {a' : Nat}
    (h : a' < a ∨ a + bs.length ≤ a') : (m.writeBytes a bs).read a' = m.read a' := by
  induction bs generalizing m a with
  | nil => rfl
  | cons b bs ih =>
    simp only [List.length_cons] at h
    simp only [Memory.writeBytes]
    rw [ih (m.write a b) (by omega), Memory.read_write_other m (by omega)]

/-- Bytes inside a run of writes read as written. -/
theorem Memory.read_writeBytes_inside {m : Memory} (hm : m.wf = true) (a : Nat) (bs : List Byte) (i : Nat)
    (h : i < bs.length) : (m.writeBytes a bs).read (a + i) = bs[i] := by
  induction bs generalizing m a i with
  | nil => simp at h
  | cons b bs ih =>
    simp only [Memory.writeBytes]
    cases i with
    | zero =>
      rw [Memory.read_writeBytes_outside _ (by omega)]
      simpa using Memory.read_write_same hm a b
    | succ i =>
      simp only [List.length_cons] at h
      have := ih (Memory.wf_write hm a b) (a + 1) i (by omega)
      simpa [Nat.add_assoc, Nat.add_comm 1 i] using this

@[simp] theorem Memory.length_readBytes (m : Memory) (a n : Nat) : (m.readBytes a n).length = n := by
  induction n generalizing a with
  | zero => rfl
  | succ n ih => simp [Memory.readBytes, ih]

theorem Memory.getElem_readBytes (m : Memory) (a n i : Nat) (h : i < n) :
    (m.readBytes a n)[i]'(by simpa using h) = m.read (a + i) := by
  induction n generalizing a i with
  | zero => omega
  | succ n ih =>
    cases i with
    | zero => simp [Memory.readBytes]
    | succ i => simp [Memory.readBytes, ih (a + 1) i (by omega), Nat.add_assoc, Nat.add_comm 1 i]

/-- Reading back the bytes just written. -/
theorem Memory.readBytes_writeBytes {m : Memory} (hm : m.wf = true) (a : Nat) (bs : List Byte) :
    (m.writeBytes a bs).readBytes a bs.length = bs := by
  apply List.ext_getElem
  · simp
  · intro i h1 h2
    rw [Memory.getElem_readBytes _ _ _ _ (by simpa using h1), Memory.read_writeBytes_inside hm _ _ _ h2]

/-- The memory of a construction holds the bytes it was constructed from. -/
theorem Memory.read_ofBytes (bs : List Byte) (i : Nat) (h : i < bs.length) : (Memory.ofBytes bs).read i = bs[i] := by
  have := Memory.read_writeBytes_inside (m := []) (by rfl) 0 bs i h
  simpa [Memory.ofBytes] using this

-- Which addresses are listed.

theorem Memory.mem_write {m : Memory} {a : Nat} {b : Byte} {c : Host.Cell} (h : c ∈ m.write a b) :
    c.1 = a ∨ c ∈ m := by
  induction m with
  | nil =>
    simp only [Memory.write] at h
    split at h <;> simp_all
  | cons d m ih =>
    obtain ⟨k, v⟩ := d
    simp only [Memory.write] at h
    split at h
    · split at h
      · exact .inr h
      · rcases List.mem_cons.1 h with h | h
        · exact .inl (by simp [h])
        · exact .inr h
    · split at h
      · split at h
        · exact .inr (List.mem_cons_of_mem _ h)
        · rcases List.mem_cons.1 h with h | h
          · exact .inl (by simp [h])
          · exact .inr (List.mem_cons_of_mem _ h)
      · rcases List.mem_cons.1 h with h | h
        · exact .inr (by simp [h])
        · exact (ih h).imp id (List.mem_cons_of_mem _)

/-- A run of writes below a bound lists no address at or above it that was not listed before. -/
theorem Memory.bounded_writeBytes {m : Memory} {cap : Nat} (hm : ∀ c ∈ m, c.1 < cap) (a : Nat) (bs : List Byte)
    (h : a + bs.length ≤ cap) : ∀ c ∈ m.writeBytes a bs, c.1 < cap := by
  induction bs generalizing m a with
  | nil => exact hm
  | cons b bs ih =>
    simp only [List.length_cons] at h
    refine ih (fun c hc => ?_) (a + 1) (by omega)
    rcases Memory.mem_write hc with hc | hc
    · omega
    · exact hm c hc

/-- Equal reads are equal memories: the canonical form is one per content. -/
theorem Memory.eq_of_read_eq {low low' : Option Nat} {m m' : Memory} (hm : Memory.wfAbove low m = true)
    (hm' : Memory.wfAbove low' m' = true) (h : ∀ a, m.read a = m'.read a) : m = m' := by
  induction m generalizing low low' m' with
  | nil =>
    cases m' with
    | nil => rfl
    | cons c m' =>
      obtain ⟨a, b⟩ := c
      have := h a
      simp [Memory.read] at this
      exact absurd this.symm ((Memory.wfAbove_cons ..).1 hm').2.1
  | cons c m ih =>
    obtain ⟨a, b⟩ := c
    have hc := (Memory.wfAbove_cons ..).1 hm
    cases m' with
    | nil =>
      have := h a
      simp [Memory.read] at this
      exact absurd this hc.2.1
    | cons c' m' =>
      obtain ⟨a', b'⟩ := c'
      have hc' := (Memory.wfAbove_cons ..).1 hm'
      have haa : a = a' := by
        rcases Nat.lt_trichotomy a a' with hlt | heq | hgt
        · have h1 := h a
          simp only [Memory.read, if_true] at h1
          rw [if_neg (by omega), Memory.read_of_wfAbove hc'.2.2 (by omega)] at h1
          exact absurd h1 hc.2.1
        · exact heq
        · have h1 := h a'
          simp only [Memory.read, if_true] at h1
          rw [if_neg (by omega), Memory.read_of_wfAbove hc.2.2 (by omega)] at h1
          exact absurd h1.symm hc'.2.1
      subst haa
      have hb : b = b' := by simpa [Memory.read] using h a
      subst hb
      rw [ih hc.2.2 hc'.2.2 fun k => ?_]
      by_cases hk : k = a
      · subst hk
        rw [Memory.read_of_wfAbove hc.2.2 (Nat.le_refl k), Memory.read_of_wfAbove hc'.2.2 (Nat.le_refl k)]
      · simpa [Memory.read, hk] using h k

end Sys2Proof.Machine
end

