-- ==== Sys2Proof/Laws/State.lean ====
section
/-! SUPPORT. One lemma per field per update of State, and per field of a constructed machine. -/

namespace Sys2Proof.Machine

@[simp] theorem State.setPc_regs (s : State) (t : Word) : (s.setPc t).regs = s.regs := rfl
@[simp] theorem State.setPc_pc (s : State) (t : Word) : (s.setPc t).pc = t := rfl
@[simp] theorem State.setPc_mem (s : State) (t : Word) : (s.setPc t).mem = s.mem := rfl
@[simp] theorem State.setPc_sp (s : State) (t : Word) : (s.setPc t).sp = s.sp := rfl
@[simp] theorem State.setPc_runState (s : State) (t : Word) : (s.setPc t).runState = s.runState := rfl
@[simp] theorem State.setPc_prog (s : State) (t : Word) : (s.setPc t).prog = s.prog := rfl
@[simp] theorem State.setPc_memCap (s : State) (t : Word) : (s.setPc t).memCap = s.memCap := rfl

@[simp] theorem State.setRegs_regs (s : State) (r : Vector Word 16) : (s.setRegs r).regs = r := rfl
@[simp] theorem State.setRegs_pc (s : State) (r : Vector Word 16) : (s.setRegs r).pc = s.pc := rfl
@[simp] theorem State.setRegs_mem (s : State) (r : Vector Word 16) : (s.setRegs r).mem = s.mem := rfl
@[simp] theorem State.setRegs_sp (s : State) (r : Vector Word 16) : (s.setRegs r).sp = s.sp := rfl
@[simp] theorem State.setRegs_runState (s : State) (r : Vector Word 16) : (s.setRegs r).runState = s.runState := rfl
@[simp] theorem State.setRegs_prog (s : State) (r : Vector Word 16) : (s.setRegs r).prog = s.prog := rfl
@[simp] theorem State.setRegs_memCap (s : State) (r : Vector Word 16) : (s.setRegs r).memCap = s.memCap := rfl

@[simp] theorem State.setMem_regs (s : State) (m : Memory) : (s.setMem m).regs = s.regs := rfl
@[simp] theorem State.setMem_pc (s : State) (m : Memory) : (s.setMem m).pc = s.pc := rfl
@[simp] theorem State.setMem_mem (s : State) (m : Memory) : (s.setMem m).mem = m := rfl
@[simp] theorem State.setMem_sp (s : State) (m : Memory) : (s.setMem m).sp = s.sp := rfl
@[simp] theorem State.setMem_runState (s : State) (m : Memory) : (s.setMem m).runState = s.runState := rfl
@[simp] theorem State.setMem_prog (s : State) (m : Memory) : (s.setMem m).prog = s.prog := rfl
@[simp] theorem State.setMem_memCap (s : State) (m : Memory) : (s.setMem m).memCap = s.memCap := rfl

@[simp] theorem State.setSp_regs (s : State) (n : Nat) : (s.setSp n).regs = s.regs := rfl
@[simp] theorem State.setSp_pc (s : State) (n : Nat) : (s.setSp n).pc = s.pc := rfl
@[simp] theorem State.setSp_mem (s : State) (n : Nat) : (s.setSp n).mem = s.mem := rfl
@[simp] theorem State.setSp_sp (s : State) (n : Nat) : (s.setSp n).sp = n := rfl
@[simp] theorem State.setSp_runState (s : State) (n : Nat) : (s.setSp n).runState = s.runState := rfl
@[simp] theorem State.setSp_prog (s : State) (n : Nat) : (s.setSp n).prog = s.prog := rfl
@[simp] theorem State.setSp_memCap (s : State) (n : Nat) : (s.setSp n).memCap = s.memCap := rfl

@[simp] theorem State.setRunState_regs (s : State) (r : RunState) : (s.setRunState r).regs = s.regs := rfl
@[simp] theorem State.setRunState_pc (s : State) (r : RunState) : (s.setRunState r).pc = s.pc := rfl
@[simp] theorem State.setRunState_mem (s : State) (r : RunState) : (s.setRunState r).mem = s.mem := rfl
@[simp] theorem State.setRunState_sp (s : State) (r : RunState) : (s.setRunState r).sp = s.sp := rfl
@[simp] theorem State.setRunState_runState (s : State) (r : RunState) : (s.setRunState r).runState = r := rfl
@[simp] theorem State.setRunState_prog (s : State) (r : RunState) : (s.setRunState r).prog = s.prog := rfl
@[simp] theorem State.setRunState_memCap (s : State) (r : RunState) : (s.setRunState r).memCap = s.memCap := rfl

@[simp] theorem State.setProg_regs (s : State) (p : List Byte) : (s.setProg p).regs = s.regs := rfl
@[simp] theorem State.setProg_pc (s : State) (p : List Byte) : (s.setProg p).pc = s.pc := rfl
@[simp] theorem State.setProg_mem (s : State) (p : List Byte) : (s.setProg p).mem = s.mem := rfl
@[simp] theorem State.setProg_sp (s : State) (p : List Byte) : (s.setProg p).sp = s.sp := rfl
@[simp] theorem State.setProg_runState (s : State) (p : List Byte) : (s.setProg p).runState = s.runState := rfl
@[simp] theorem State.setProg_prog (s : State) (p : List Byte) : (s.setProg p).prog = p := rfl
@[simp] theorem State.setProg_memCap (s : State) (p : List Byte) : (s.setProg p).memCap = s.memCap := rfl

@[simp] theorem State.construct_regs (p : Params) : (State.construct p).regs = p.regInit := rfl
@[simp] theorem State.construct_pc (p : Params) : (State.construct p).pc = p.pcInit := rfl
@[simp] theorem State.construct_mem (p : Params) : (State.construct p).mem = Memory.ofBytes p.memInit := rfl
@[simp] theorem State.construct_sp (p : Params) : (State.construct p).sp = p.memCap := rfl
@[simp] theorem State.construct_runState (p : Params) : (State.construct p).runState = .running := rfl
@[simp] theorem State.construct_prog (p : Params) : (State.construct p).prog = p.prog := rfl
@[simp] theorem State.construct_memCap (p : Params) : (State.construct p).memCap = p.memCap := rfl

end Sys2Proof.Machine
end

