-- ==== Sys2Proof/Laws/Ops.lean ====
section
/-! SUPPORT. One lemma per shared operation that says everything it can do, and the accessors over the updates. -/

namespace Sys2Proof.Machine

-- Accessors over updates.

@[simp] theorem State.x_setX (s : State) (i j : RegId) (v : Word) :
    (s.setX i v).x j = if j = i then v else s.x j := by
  simp only [State.x, State.setX, State.setRegs, Vector.getElem_set]
  by_cases h : j = i
  · subst h
    simp
  · have hne : ¬ i.toNat = j.toNat := fun he => h (BitVec.eq_of_toNat_eq he.symm)
    simp [h, hne]

@[simp] theorem State.x_setPc (s : State) (t : Word) (i : RegId) : (s.setPc t).x i = s.x i := rfl
@[simp] theorem State.x_setMem (s : State) (m : Memory) (i : RegId) : (s.setMem m).x i = s.x i := rfl
@[simp] theorem State.x_setSp (s : State) (n : Nat) (i : RegId) : (s.setSp n).x i = s.x i := rfl
@[simp] theorem State.x_setRunState (s : State) (r : RunState) (i : RegId) : (s.setRunState r).x i = s.x i := rfl
@[simp] theorem State.x_setProg (s : State) (p : List Byte) (i : RegId) : (s.setProg p).x i = s.x i := rfl
@[simp] theorem takeCondition_x (k : Condition) (s : State) (i : RegId) : (takeCondition k s).x i = s.x i := rfl

@[simp] theorem State.setX_pc (s : State) (i : RegId) (v : Word) : (s.setX i v).pc = s.pc := rfl
@[simp] theorem State.setX_mem (s : State) (i : RegId) (v : Word) : (s.setX i v).mem = s.mem := rfl
@[simp] theorem State.setX_sp (s : State) (i : RegId) (v : Word) : (s.setX i v).sp = s.sp := rfl
@[simp] theorem State.setX_runState (s : State) (i : RegId) (v : Word) : (s.setX i v).runState = s.runState := rfl
@[simp] theorem State.setX_prog (s : State) (i : RegId) (v : Word) : (s.setX i v).prog = s.prog := rfl
@[simp] theorem State.setX_memCap (s : State) (i : RegId) (v : Word) : (s.setX i v).memCap = s.memCap := rfl

@[simp] theorem takeCondition_regs (k : Condition) (s : State) : (takeCondition k s).regs = s.regs := rfl
@[simp] theorem takeCondition_pc (k : Condition) (s : State) : (takeCondition k s).pc = s.pc := rfl
@[simp] theorem takeCondition_mem (k : Condition) (s : State) : (takeCondition k s).mem = s.mem := rfl
@[simp] theorem takeCondition_sp (k : Condition) (s : State) : (takeCondition k s).sp = s.sp := rfl
@[simp] theorem takeCondition_runState (k : Condition) (s : State) : (takeCondition k s).runState = k.runState := rfl
@[simp] theorem takeCondition_prog (k : Condition) (s : State) : (takeCondition k s).prog = s.prog := rfl
@[simp] theorem takeCondition_memCap (k : Condition) (s : State) : (takeCondition k s).memCap = s.memCap := rfl

@[simp] theorem State.byteAt_setPc (s : State) (t : Word) (a : Nat) : (s.setPc t).byteAt a = s.byteAt a := rfl
@[simp] theorem State.byteAt_setRegs (s : State) (r : Vector Word 16) (a : Nat) :
    (s.setRegs r).byteAt a = s.byteAt a := rfl
@[simp] theorem State.byteAt_setX (s : State) (i : RegId) (v : Word) (a : Nat) : (s.setX i v).byteAt a = s.byteAt a := rfl
@[simp] theorem State.byteAt_setMem (s : State) (m : Memory) (a : Nat) : (s.setMem m).byteAt a = m.read a := rfl
@[simp] theorem State.byteAt_setSp (s : State) (n : Nat) (a : Nat) : (s.setSp n).byteAt a = s.byteAt a := rfl
@[simp] theorem State.byteAt_setRunState (s : State) (r : RunState) (a : Nat) :
    (s.setRunState r).byteAt a = s.byteAt a := rfl
@[simp] theorem State.byteAt_setProg (s : State) (p : List Byte) (a : Nat) : (s.setProg p).byteAt a = s.byteAt a := rfl
@[simp] theorem takeCondition_byteAt (k : Condition) (s : State) (a : Nat) :
    (takeCondition k s).byteAt a = s.byteAt a := rfl

/-- Two states whose registers read alike have one register file. -/
theorem State.regs_eq_of_x_eq {s t : State} (h : ∀ r, t.x r = s.x r) : t.regs = s.regs := by
  apply Vector.ext
  intro i hi
  have := h (BitVec.ofNatLT i hi)
  simpa [State.x] using this

/-- No condition is taken into Running. -/
theorem Condition.runState_ne_running (k : Condition) : k.runState ≠ .running := by
  cases k <;> simp [Condition.runState]

-- What each operation can do.

theorem regRead_eq_ok_iff {s : State} {i : RegId} {v : Word} :
    regRead s i = .ok v ↔ i ≠ rNONE ∧ v = s.x i := by
  unfold regRead
  split <;> simp_all [eq_comm]

theorem regRead_eq_error_iff {s : State} {i : RegId} {k : Condition} :
    regRead s i = .error k ↔ i = rNONE ∧ k = .register := by
  unfold regRead
  split <;> simp_all [eq_comm]

theorem regWrite_eq_ok_iff {s t : State} {i : RegId} {v : Word} :
    regWrite s i v = .ok t ↔ i ≠ rNONE ∧ t = s.setX i v := by
  unfold regWrite
  split <;> simp_all [eq_comm]

theorem regWrite_eq_error_iff {s : State} {i : RegId} {v : Word} {k : Condition} :
    regWrite s i v = .error k ↔ i = rNONE ∧ k = .register := by
  unfold regWrite
  split <;> simp_all [eq_comm]

theorem inBounds_iff {s : State} {a n : Nat} : inBounds s a n = true ↔ a + n ≤ s.memCap := by
  simp [inBounds]

theorem memRead_eq_ok_iff {s : State} {addr : Word} {n : Nat} {v : BitVec (8 * n)} :
    memRead s addr n = .ok v ↔
      addr.toNat + n ≤ s.memCap ∧ v = BitVec.ofNat (8 * n) (leNat (s.mem.readBytes addr.toNat n)) := by
  unfold memRead
  split <;> simp_all [inBounds, eq_comm]

theorem memRead_eq_error_iff {s : State} {addr : Word} {n : Nat} {k : Condition} :
    memRead s addr n = .error k ↔ s.memCap < addr.toNat + n ∧ k = .memory := by
  unfold memRead
  split <;> simp_all [inBounds, eq_comm]

theorem memWrite_eq_ok_iff {s t : State} {addr : Word} {n : Nat} {v : BitVec (8 * n)} :
    memWrite s addr n v = .ok t ↔
      addr.toNat + n ≤ s.memCap ∧ t = s.setMem (s.mem.writeBytes addr.toNat (leBytes n v.toNat)) := by
  unfold memWrite
  split <;> simp_all [inBounds, eq_comm]

theorem memWrite_eq_error_iff {s : State} {addr : Word} {n : Nat} {v : BitVec (8 * n)} {k : Condition} :
    memWrite s addr n v = .error k ↔ s.memCap < addr.toNat + n ∧ k = .memory := by
  unfold memWrite
  split <;> simp_all [inBounds, eq_comm]

theorem byteRead_eq_ok_iff {s : State} {a : Word} {b : Byte} :
    byteRead s a = .ok b ↔ a.toNat < s.memCap ∧ b = s.byteAt a.toNat := by
  unfold byteRead
  split <;> simp_all [eq_comm]

theorem byteWrite_eq_ok_iff {s t : State} {a : Word} {b : Byte} :
    byteWrite s a b = .ok t ↔ a.toNat < s.memCap ∧ t = s.setMem (s.mem.write a.toNat b) := by
  unfold byteWrite
  split <;> simp_all [eq_comm]

theorem push_eq_ok_iff {s t : State} {b : Byte} :
    push s b = .ok t ↔ 0 < s.sp ∧ t = (s.setSp (s.sp - 1)).setMem (s.mem.write (s.sp - 1) b) := by
  unfold push
  split
  · simp_all
  · simp_all [eq_comm]
    omega

theorem pushNWith_eq_ok_iff {o : PushNOrder} {s t : State} {bs : List Byte} :
    pushNWith o s bs = .ok t ↔ bs.length ≤ s.sp ∧
      t = (s.setSp (s.sp - bs.length)).setMem (s.mem.writeBytes (s.sp - bs.length) (pushNLayout o bs)) := by
  unfold pushNWith
  split <;> simp_all [eq_comm]

theorem pop_eq_ok_iff {s t : State} {b : Byte} :
    pop s = .ok (b, t) ↔ s.sp ≠ s.memCap ∧ b = s.byteAt s.sp ∧ t = s.setSp (s.sp + 1) := by
  unfold pop
  split <;> simp_all [eq_comm]

@[simp] theorem length_pushNLayout (o : PushNOrder) (bs : List Byte) : (pushNLayout o bs).length = bs.length := by
  cases o <;> simp [pushNLayout]

/-- `Execute` answers a next state always: the one the instruction left, or the one in which a condition is taken. -/
theorem conclude_eq_next_iff {s t : State} {r : Except Condition State} :
    conclude s r = .next t ↔ r = .ok t ∨ ∃ k, r = .error k ∧ t = takeCondition k s := by
  cases r <;> simp [conclude, eq_comm]

/-- The pointer unit reads the base register alone (R40). -/
theorem resolve_eq (s : State) (p : Pointer) :
    resolve s p = (if p.base = rNONE then 0 else s.x p.base) + bits64 p.off := rfl

/-- The decoder's advance of `pc` does not move an address (R40). -/
@[simp] theorem resolve_setPc (s : State) (t : Word) (p : Pointer) : resolve (s.setPc t) p = resolve s p := rfl

end Sys2Proof.Machine
end

