-- ==== Sys2Proof/Laws/PerInstr.lean ====
section
/-! SUPPORT. A fact about the encoding of every instruction, one lemma per constructor. -/

namespace Sys2Proof.Laws

/-- The first byte of an instruction's encoding is recognized, and the length its format declares is the length of the
encoding (R52, R64, R66). -/
def EncodedLength.Statement (i : Instr) : Prop :=
  ((encode i).head?.bind formatOf).map Format.length = some (encode i).length

theorem EncodedLength.halt : EncodedLength.Statement (.halt) := rfl
theorem EncodedLength.nop : EncodedLength.Statement (.nop) := rfl
theorem EncodedLength.rrmovq (rA : RegId) (rB : RegId) : EncodedLength.Statement (.rrmovq rA rB) := rfl
theorem EncodedLength.cmov1 (rA : RegId) (rB : RegId) : EncodedLength.Statement (.cmov1 rA rB) := rfl
theorem EncodedLength.cmov2 (rA : RegId) (rB : RegId) : EncodedLength.Statement (.cmov2 rA rB) := rfl
theorem EncodedLength.cmov3 (rA : RegId) (rB : RegId) : EncodedLength.Statement (.cmov3 rA rB) := rfl
theorem EncodedLength.cmov4 (rA : RegId) (rB : RegId) : EncodedLength.Statement (.cmov4 rA rB) := rfl
theorem EncodedLength.cmov5 (rA : RegId) (rB : RegId) : EncodedLength.Statement (.cmov5 rA rB) := rfl
theorem EncodedLength.cmov6 (rA : RegId) (rB : RegId) : EncodedLength.Statement (.cmov6 rA rB) := rfl
theorem EncodedLength.cmov7 (rA : RegId) (rB : RegId) : EncodedLength.Statement (.cmov7 rA rB) := rfl
theorem EncodedLength.cmov8 (rA : RegId) (rB : RegId) : EncodedLength.Statement (.cmov8 rA rB) := rfl
theorem EncodedLength.cmov9 (rA : RegId) (rB : RegId) : EncodedLength.Statement (.cmov9 rA rB) := rfl
theorem EncodedLength.cmov10 (rA : RegId) (rB : RegId) : EncodedLength.Statement (.cmov10 rA rB) := rfl
theorem EncodedLength.cmov11 (rA : RegId) (rB : RegId) : EncodedLength.Statement (.cmov11 rA rB) := rfl
theorem EncodedLength.cmov12 (rA : RegId) (rB : RegId) : EncodedLength.Statement (.cmov12 rA rB) := rfl
theorem EncodedLength.cmov13 (rA : RegId) (rB : RegId) : EncodedLength.Statement (.cmov13 rA rB) := rfl
theorem EncodedLength.cmov14 (rA : RegId) (rB : RegId) : EncodedLength.Statement (.cmov14 rA rB) := rfl
theorem EncodedLength.cmov15 (rA : RegId) (rB : RegId) : EncodedLength.Statement (.cmov15 rA rB) := rfl
theorem EncodedLength.irmovq (v : Word) (rB : RegId) : EncodedLength.Statement (.irmovq v rB) := rfl
theorem EncodedLength.rmmovq (rA : RegId) (p : Pointer) : EncodedLength.Statement (.rmmovq rA p) := rfl
theorem EncodedLength.mrmovq (p : Pointer) (rA : RegId) : EncodedLength.Statement (.mrmovq p rA) := rfl
theorem EncodedLength.addq (rA : RegId) (rB : RegId) : EncodedLength.Statement (.addq rA rB) := rfl
theorem EncodedLength.subq (rA : RegId) (rB : RegId) : EncodedLength.Statement (.subq rA rB) := rfl
theorem EncodedLength.andq (rA : RegId) (rB : RegId) : EncodedLength.Statement (.andq rA rB) := rfl
theorem EncodedLength.xorq (rA : RegId) (rB : RegId) : EncodedLength.Statement (.xorq rA rB) := rfl
theorem EncodedLength.jmp (dest : Word) : EncodedLength.Statement (.jmp dest) := rfl
theorem EncodedLength.j1 (dest : Word) : EncodedLength.Statement (.j1 dest) := rfl
theorem EncodedLength.j2 (dest : Word) : EncodedLength.Statement (.j2 dest) := rfl
theorem EncodedLength.j3 (dest : Word) : EncodedLength.Statement (.j3 dest) := rfl
theorem EncodedLength.j4 (dest : Word) : EncodedLength.Statement (.j4 dest) := rfl
theorem EncodedLength.j5 (dest : Word) : EncodedLength.Statement (.j5 dest) := rfl
theorem EncodedLength.j6 (dest : Word) : EncodedLength.Statement (.j6 dest) := rfl
theorem EncodedLength.j7 (dest : Word) : EncodedLength.Statement (.j7 dest) := rfl
theorem EncodedLength.j8 (dest : Word) : EncodedLength.Statement (.j8 dest) := rfl
theorem EncodedLength.j9 (dest : Word) : EncodedLength.Statement (.j9 dest) := rfl
theorem EncodedLength.j10 (dest : Word) : EncodedLength.Statement (.j10 dest) := rfl
theorem EncodedLength.j11 (dest : Word) : EncodedLength.Statement (.j11 dest) := rfl
theorem EncodedLength.j12 (dest : Word) : EncodedLength.Statement (.j12 dest) := rfl
theorem EncodedLength.j13 (dest : Word) : EncodedLength.Statement (.j13 dest) := rfl
theorem EncodedLength.j14 (dest : Word) : EncodedLength.Statement (.j14 dest) := rfl
theorem EncodedLength.j15 (dest : Word) : EncodedLength.Statement (.j15 dest) := rfl
theorem EncodedLength.call (dest : Word) : EncodedLength.Statement (.call dest) := rfl
theorem EncodedLength.ret : EncodedLength.Statement (.ret) := rfl
theorem EncodedLength.pushq (rA : RegId) (rB : RegId) : EncodedLength.Statement (.pushq rA rB) := rfl
theorem EncodedLength.popq (rA : RegId) (rB : RegId) : EncodedLength.Statement (.popq rA rB) := rfl

end Sys2Proof.Laws
end

