-- ==== Sys2Proof/Laws/Step.lean ====
section
/-! SUPPORT. Said once: what an instruction can do, what a step can do. -/

namespace Sys2Proof.Machine

/-- A register move's effect (R72). -/
theorem execRrmovq_eq (rA rB : RegId) (s : State) :
    execRrmovq rA rB s =
      .next (if rA = rNONE ∨ rB = rNONE then takeCondition .register s else s.setX rB (s.x rA)) := by
  by_cases hA : rA = rNONE <;> by_cases hB : rB = rNONE <;>
    simp [execRrmovq, regRead, regWrite, conclude, Except.bind, hA, hB]

/-- The common effect of the arithmetic family (R78). -/
theorem arithmetic_eq (op : (vB vA : Word) → Word) (rA rB : RegId) (s : State) :
    arithmetic op rA rB s =
      .next (if rA = rNONE ∨ rB = rNONE then takeCondition .register s else s.setX rB (op (s.x rB) (s.x rA))) := by
  by_cases hA : rA = rNONE <;> by_cases hB : rB = rNONE <;>
    simp [arithmetic, regRead, regWrite, conclude, Except.bind, hA, hB]

/-- An immediate move's effect (R74). -/
theorem execIrmovq_eq (v : Word) (rB : RegId) (s : State) :
    execIrmovq v rB s = .next (if rB = rNONE then takeCondition .register s else s.setX rB v) := by
  by_cases hB : rB = rNONE <;> simp [execIrmovq, regWrite, conclude, hB]

/-- A store's effect (R75). -/
theorem execRmmovq_eq (rA : RegId) (p : Pointer) (s : State) :
    execRmmovq rA p s =
      .next (if rA = rNONE then takeCondition .register s
        else if (resolve s p).toNat + 8 ≤ s.memCap then
          s.setMem (s.mem.writeBytes (resolve s p).toNat (leBytes 8 (s.x rA).toNat))
        else takeCondition .memory s) := by
  by_cases hA : rA = rNONE
  · simp [execRmmovq, regRead, conclude, Except.bind, hA]
  · by_cases hm : (resolve s p).toNat + 8 ≤ s.memCap <;>
      simp [execRmmovq, regRead, memWrite, inBounds, conclude, Except.bind, hA, hm]

/-- A load's effect (R76). -/
theorem execMrmovq_eq (p : Pointer) (rA : RegId) (s : State) :
    execMrmovq p rA s =
      .next (if (resolve s p).toNat + 8 ≤ s.memCap then
          if rA = rNONE then takeCondition .register s
          else s.setX rA (BitVec.ofNat 64 (leNat (s.mem.readBytes (resolve s p).toNat 8)))
        else takeCondition .memory s) := by
  by_cases hm : (resolve s p).toNat + 8 ≤ s.memCap
  · by_cases hA : rA = rNONE <;> simp [execMrmovq, regWrite, memRead, inBounds, conclude, Except.bind, hA, hm]
  · simp [execMrmovq, memRead, inBounds, conclude, Except.bind, hm]

/-- Everything an instruction can do (R15, R92): take a condition with nothing else changed; nothing; write one real
register; store eight bytes in bounds; load `pc`. -/
theorem exec_cases (i : Instr) (s : State) : ∃ t, exec i s = .next t ∧
    ((∃ k, t = takeCondition k s) ∨ t = s ∨ (∃ r v, r ≠ rNONE ∧ t = s.setX r v) ∨
      (∃ rA p, i = .rmmovq rA p ∧ rA ≠ rNONE ∧ (resolve s p).toNat + 8 ≤ s.memCap ∧
        t = s.setMem (s.mem.writeBytes (resolve s p).toNat (leBytes 8 (s.x rA).toNat))) ∨
      (∃ d, i = .jmp d ∧ t = s.setPc d)) := by
  have harith (op : (vB vA : Word) → Word) (rA rB : RegId) : ∃ t, arithmetic op rA rB s = .next t ∧
      ((∃ k, t = takeCondition k s) ∨ t = s ∨ (∃ r v, r ≠ rNONE ∧ t = s.setX r v)) := by
    refine ⟨_, arithmetic_eq op rA rB s, ?_⟩
    split
    · exact .inl ⟨_, rfl⟩
    · rename_i h
      exact .inr (.inr ⟨rB, _, fun hB => h (.inr hB), rfl⟩)
  cases i with
  | rrmovq rA rB =>
    refine ⟨_, execRrmovq_eq rA rB s, ?_⟩
    split
    · exact .inl ⟨_, rfl⟩
    · rename_i h
      exact .inr (.inr (.inl ⟨rB, _, fun hB => h (.inr hB), rfl⟩))
  | irmovq v rB =>
    refine ⟨_, execIrmovq_eq v rB s, ?_⟩
    split
    · exact .inl ⟨_, rfl⟩
    · rename_i h
      exact .inr (.inr (.inl ⟨rB, _, h, rfl⟩))
  | rmmovq rA p =>
    refine ⟨_, execRmmovq_eq rA p s, ?_⟩
    split
    · exact .inl ⟨_, rfl⟩
    · rename_i hA
      split
      · rename_i hm
        exact .inr (.inr (.inr (.inl ⟨rA, p, rfl, hA, hm, rfl⟩)))
      · exact .inl ⟨_, rfl⟩
  | mrmovq p rA =>
    refine ⟨_, execMrmovq_eq p rA s, ?_⟩
    split
    · split
      · exact .inl ⟨_, rfl⟩
      · rename_i hA
        exact .inr (.inr (.inl ⟨rA, _, hA, rfl⟩))
    · exact .inl ⟨_, rfl⟩
  | addq rA rB => exact (harith _ rA rB).imp fun t h => ⟨h.1, h.2.imp id (Or.imp id .inl)⟩
  | subq rA rB => exact (harith _ rA rB).imp fun t h => ⟨h.1, h.2.imp id (Or.imp id .inl)⟩
  | andq rA rB => exact (harith _ rA rB).imp fun t h => ⟨h.1, h.2.imp id (Or.imp id .inl)⟩
  | xorq rA rB => exact (harith _ rA rB).imp fun t h => ⟨h.1, h.2.imp id (Or.imp id .inl)⟩
  | jmp d => exact ⟨_, rfl, .inr (.inr (.inr (.inr ⟨d, rfl, rfl⟩)))⟩
  | nop | call _ | ret | pushq _ _ | popq _ _ => exact ⟨_, rfl, .inr (.inl rfl)⟩
  | _ => exact ⟨_, rfl, .inl ⟨_, rfl⟩⟩

/-- Everything the loop test and the decode can answer (R90, R53). -/
theorem fetchDecode_eq_ok_iff {s t : State} {i : Instr} :
    fetchDecode s = .ok (i, t) ↔ s.pc.toNat < s.prog.length ∧
      ∃ n, decode (stream s) = .ok (i, n) ∧ t = s.setPc (s.pc + BitVec.ofNat 64 n) := by
  unfold fetchDecode pcInStream
  by_cases hp : s.pc.toNat < s.prog.length
  · simp only [hp, decide_true, if_true, true_and]
    cases hd : decode (stream s) with
    | error e => simp
    | ok r =>
      obtain ⟨j, n⟩ := r
      constructor
      · intro h
        cases h
        exact ⟨n, rfl, rfl⟩
      · rintro ⟨m, hm, ht⟩
        cases hm
        rw [ht]
  · simp [hp]

theorem fetchDecode_eq_error_iff {s : State} {k : Condition} :
    fetchDecode s = .error k ↔ (s.prog.length ≤ s.pc.toNat ∧ k = .endOfInput) ∨
      (s.pc.toNat < s.prog.length ∧ ∃ e, decode (stream s) = .error e ∧ k = decodeCondition e) := by
  unfold fetchDecode pcInStream
  by_cases hp : s.pc.toNat < s.prog.length
  · simp only [hp, decide_true, if_true, Nat.not_le.2 hp, false_and, false_or, true_and]
    cases hd : decode (stream s) with
    | error e => simp [eq_comm]
    | ok r => simp
  · simp [hp, Nat.not_lt.1 hp, eq_comm]

/-- A step of a machine whose run has ended. -/
theorem step_of_ended {s : State} (h : s.ended) : step s = .fault .terminated := by
  unfold step
  split <;> simp_all

/-- A step of a running machine, unfolded once. -/
theorem step_of_running {s : State} (h : s.runState = .running) :
    (∀ k, fetchDecode s = .error k → step s = .next (takeCondition k s)) ∧
      (∀ i t, fetchDecode s = .ok (i, t) → step s = exec i t) := by
  constructor <;> intros <;> simp_all [step]

/-- Everything a step can do (R90): it is the step of a running machine, and either the loop test or the decode raises a
condition, or an instruction is decoded and executed. -/
theorem step_cases {s t : State} (h : step s = .next t) : s.runState = .running ∧
    ((∃ k, fetchDecode s = .error k ∧ t = takeCondition k s) ∨
      (∃ i n, s.pc.toNat < s.prog.length ∧ decode (stream s) = .ok (i, n) ∧
        exec i (s.setPc (s.pc + BitVec.ofNat 64 n)) = .next t)) := by
  by_cases hr : s.runState = .running
  · refine ⟨hr, ?_⟩
    cases hf : fetchDecode s with
    | error k =>
      rw [(step_of_running hr).1 k hf] at h
      cases h
      exact .inl ⟨k, rfl, rfl⟩
    | ok r =>
      obtain ⟨i, u⟩ := r
      rw [(step_of_running hr).2 i u hf] at h
      obtain ⟨hp, n, hd, rfl⟩ := fetchDecode_eq_ok_iff.1 hf
      exact .inr ⟨i, n, hp, hd, h⟩
  · rw [step_of_ended hr] at h
    cases h

end Sys2Proof.Machine
end

