-- ==== Sys2Proof/Machine/Flags.lean ====
section
/-! DEFINITION. Flags: the machine has no flags or condition-code register (R22), no instruction writes or reads one
(R78 law 4), and so this file defines none. -/
end

