-- ==== Sys2Proof/Tests/Slice0.lean ====
section
/-! SUPPORT. Tests: the checks of WellFormed, words written out from the encodings of spec/30_encoding.md, vectors of
spec/95_test_vectors.md named by their ids there, and for every statement with hypotheses a state and operands that meet
them. Every expected value is the spec's or worked out by hand from the rule cited. -/

namespace Sys2Proof.Tests

open Sys2Proof Sys2Proof.Machine

-- WellFormed: an ill-formed term for each check.

theorem test_offset_above_i64_refused : Instr.wellFormed (.rmmovq 0 ⟨1, 2 ^ 63⟩) = false := by decide
theorem test_offset_below_i64_refused : Instr.wellFormed (.mrmovq ⟨1, -2 ^ 63 - 1⟩ 0) = false := by decide
theorem test_offset_bounds_accepted :
    Instr.wellFormed (.rmmovq 0 ⟨1, 2 ^ 63 - 1⟩) = true ∧ Instr.wellFormed (.mrmovq ⟨15, -2 ^ 63⟩ 0) = true := by decide
theorem test_program_too_long_refused :
    ∀ prog : List Byte, prog.length = 2 ^ 64 →
      Params.wellFormed { prog := prog, memCap := 0, memInit := [] } = false := by
  intro prog h
  simp [Params.wellFormed, h]
theorem test_capacity_too_large_refused :
    Params.wellFormed { prog := [], memCap := 2 ^ 64, memInit := [] } = false := by decide
theorem test_memory_of_wrong_length_refused :
    Params.wellFormed { prog := [], memCap := 2, memInit := [1] } = false := by decide

-- Decoding: every constructor from bytes written out by R52, R54 to R57 and R66; and encoding, the notation's bytes.

theorem test_decode_family0 : decode [0x00] = .ok (.halt, 1) ∧ decode [0x10, 0xFF] = .ok (.nop, 1) := by decide
theorem test_decode_rrmovq : decode [0b00100000, 0b00000011] = .ok (.rrmovq 0 3, 2) := by decide
theorem test_decode_reserved_moves :
  decode [0x21, 0x2A] = .ok (.cmov1 2 10, 2) ∧
  decode [0x22, 0x4F] = .ok (.cmov2 4 15, 2) ∧
  decode [0x23, 0x74] = .ok (.cmov3 7 4, 2) ∧
  decode [0x24, 0x99] = .ok (.cmov4 9 9, 2) ∧
  decode [0x25, 0xBE] = .ok (.cmov5 11 14, 2) ∧
  decode [0x26, 0xE3] = .ok (.cmov6 14 3, 2) ∧
  decode [0x27, 0x08] = .ok (.cmov7 0 8, 2) ∧
  decode [0x28, 0x2D] = .ok (.cmov8 2 13, 2) ∧
  decode [0x29, 0x52] = .ok (.cmov9 5 2, 2) ∧
  decode [0x2A, 0x77] = .ok (.cmov10 7 7, 2) ∧
  decode [0x2B, 0x9C] = .ok (.cmov11 9 12, 2) ∧
  decode [0x2C, 0xC1] = .ok (.cmov12 12 1, 2) ∧
  decode [0x2D, 0xE6] = .ok (.cmov13 14 6, 2) ∧
  decode [0x2E, 0x0B] = .ok (.cmov14 0 11, 2) ∧
  decode [0x2F, 0x30] = .ok (.cmov15 3 0, 2) := by decide
theorem test_decode_irmovq : decode [0x30, 0x0E, 1, 2, 3, 4, 5, 6, 7, 8] = .ok (.irmovq 0x0807060504030201 14, 10) := by
  decide
theorem test_decode_rmmovq :
    decode [0x40, 0x63, 0xF8, 0xFF, 0xFF, 0xFF, 0xFF, 0xFF, 0xFF, 0xFF] = .ok (.rmmovq 6 ⟨3, -8⟩, 10) := by decide
theorem test_decode_mrmovq : decode [0x50, 0x7F, 0x1B, 0, 0, 0, 0, 0, 0, 0] = .ok (.mrmovq ⟨15, 27⟩ 7, 10) := by decide
theorem test_decode_arithmetic : decode [0x60, 0x12] = .ok (.addq 1 2, 2) ∧ decode [0x61, 0x12] = .ok (.subq 1 2, 2) ∧
    decode [0x62, 0x12] = .ok (.andq 1 2, 2) ∧ decode [0x63, 0x12] = .ok (.xorq 1 2, 2) := by decide
theorem test_decode_jmp : decode [0x70, 0, 0, 0, 0, 0, 0, 0, 1] = .ok (.jmp 0x0100000000000000, 9) := by decide
theorem test_decode_reserved_jumps :
  decode [0x71, 1, 2, 0, 0, 0, 0, 0, 1] = .ok (.j1 0x0100000000000201, 9) ∧
  decode [0x72, 2, 2, 0, 0, 0, 0, 0, 1] = .ok (.j2 0x0100000000000202, 9) ∧
  decode [0x73, 3, 2, 0, 0, 0, 0, 0, 1] = .ok (.j3 0x0100000000000203, 9) ∧
  decode [0x74, 4, 2, 0, 0, 0, 0, 0, 1] = .ok (.j4 0x0100000000000204, 9) ∧
  decode [0x75, 5, 2, 0, 0, 0, 0, 0, 1] = .ok (.j5 0x0100000000000205, 9) ∧
  decode [0x76, 6, 2, 0, 0, 0, 0, 0, 1] = .ok (.j6 0x0100000000000206, 9) ∧
  decode [0x77, 7, 2, 0, 0, 0, 0, 0, 1] = .ok (.j7 0x0100000000000207, 9) ∧
  decode [0x78, 8, 2, 0, 0, 0, 0, 0, 1] = .ok (.j8 0x0100000000000208, 9) ∧
  decode [0x79, 9, 2, 0, 0, 0, 0, 0, 1] = .ok (.j9 0x0100000000000209, 9) ∧
  decode [0x7A, 10, 2, 0, 0, 0, 0, 0, 1] = .ok (.j10 0x010000000000020A, 9) ∧
  decode [0x7B, 11, 2, 0, 0, 0, 0, 0, 1] = .ok (.j11 0x010000000000020B, 9) ∧
  decode [0x7C, 12, 2, 0, 0, 0, 0, 0, 1] = .ok (.j12 0x010000000000020C, 9) ∧
  decode [0x7D, 13, 2, 0, 0, 0, 0, 0, 1] = .ok (.j13 0x010000000000020D, 9) ∧
  decode [0x7E, 14, 2, 0, 0, 0, 0, 0, 1] = .ok (.j14 0x010000000000020E, 9) ∧
  decode [0x7F, 15, 2, 0, 0, 0, 0, 0, 1] = .ok (.j15 0x010000000000020F, 9) := by decide
theorem test_decode_call_stack : decode [0x80, 0xE8, 3, 0, 0, 0, 0, 0, 0] = .ok (.call 1000, 9) ∧
    decode [0x90] = .ok (.ret, 1) ∧ decode [0xA0, 0x3F] = .ok (.pushq 3 15, 2) ∧
    decode [0xB0, 0xC4] = .ok (.popq 12 4, 2) := by decide
/-- 95 section 2.7: the refused bytes beside the accepted ones. -/
theorem test_unrecognized_bytes : ∀ b ∈ ([0x01, 0x11, 0x31, 0x3F, 0x41, 0x51, 0x64, 0x6F, 0x81, 0x91, 0xA1, 0xB1, 0xC0,
    0xFF] : List Byte), decode [b, 0, 0, 0, 0, 0, 0, 0, 0, 0] = .error .code := by decide
theorem test_recognized_count : ((List.range 256).filter fun b => (formatOf (BitVec.ofNat 8 b)).isSome).length = 45 := by
  decide
/-- I6, V8, J7, K7: truncated. -/
theorem test_truncated : decode [0x30, 0xF5, 1, 0, 0, 0, 0, 0, 0] = .error .endOfInput ∧
    decode [0x20] = .error .endOfInput ∧ decode [0x71, 0, 0, 0, 0, 0, 0, 0] = .error .endOfInput ∧
    decode [0x80, 0, 0, 0] = .error .endOfInput := by decide
theorem test_encode : encode (.irmovq 0x12345678 0) = [0x30, 0xF0, 0x78, 0x56, 0x34, 0x12, 0, 0, 0, 0] ∧
    encode (.rmmovq 6 ⟨3, -8⟩) = [0x40, 0x63, 0xF8, 0xFF, 0xFF, 0xFF, 0xFF, 0xFF, 0xFF, 0xFF] ∧
    encode (.cmov9 1 2) = [0x29, 0x12] ∧ encode (.jmp 10) = [0x70, 10, 0, 0, 0, 0, 0, 0, 0] ∧ encode .ret = [0x90] := by
  decide
theorem test_table_word : decodeTableWord 16 0x0320 = some (.rrmovq 0 3) ∧ decodeTableWord 8 0x70 = some (.jmp 0) ∧
    decodeTableWord 8 0x64 = none := by decide

-- Small machines: the conventions of 95 (MEM_CAP 64, memory and registers zero, PC_INIT 0).

/-- A machine with this program. -/
def machine (prog : List Byte) : State :=
  State.construct { prog := prog, memCap := 64, memInit := List.replicate 64 0 }

/-- The state a step answers; the state itself where the step answers none. -/
def stepped (s : State) : State :=
  match step s with
  | .next t => t
  | .fault _ => s
  | .refused _ => s

/-- H2. -/
theorem test_halt : let t := stepped (machine [0x00, 0xFF]); t.runState = .halted ∧ t.pc = 1 := by decide
/-- H3. -/
theorem test_nop : stepped (machine [0x10, 0x00]) = (machine [0x10, 0x00]).setPc 1 := by decide
/-- V1. -/
theorem test_rrmovq : let t := stepped ((machine [0x20, 0x03]).setX 0 0x1122334455667788)
    t.x 3 = 0x1122334455667788 ∧ t.x 0 = 0x1122334455667788 ∧ t.pc = 2 := by decide
/-- V3, V4. -/
theorem test_rrmovq_sentinel : (stepped (machine [0x20, 0xF3])).runState = .failed .register ∧
    (stepped (machine [0x20, 0x3F])).runState = .failed .register := by decide
/-- V7, V6. -/
theorem test_reserved_moves : let t := stepped (machine [0x21, 0xFF])
    t.runState = .failed .unimplemented ∧ t.pc = 2 ∧
    (stepped (machine [0x2F, 0x01])).runState = .failed .unimplemented := by decide
/-- I4. -/
theorem test_irmovq : let t := stepped (machine [0x30, 0x05, 0x42, 0, 0, 0, 0, 0, 0, 0])
    t.x 5 = 0x42 ∧ t.pc = 10 := by decide
/-- I5. -/
theorem test_irmovq_sentinel : let t := stepped (machine [0x30, 0xFF, 0x42, 0, 0, 0, 0, 0, 0, 0])
    t.runState = .failed .register ∧ t.pc = 10 := by decide
/-- M10. -/
theorem test_rmmovq :
    (stepped (((machine [0x40, 0x63, 0xF8, 0xFF, 0xFF, 0xFF, 0xFF, 0xFF, 0xFF, 0xFF]).setX 3 0x20).setX 6
      0x1122334455667788)).mem.readBytes 23 10 = [0, 0x88, 0x77, 0x66, 0x55, 0x44, 0x33, 0x22, 0x11, 0] := by decide
/-- M3, M4, M7, M8. -/
theorem test_rmmovq_bounds :
    (stepped (machine [0x40, 0x0F, 0x38, 0, 0, 0, 0, 0, 0, 0])).runState = .running ∧
    (stepped (machine [0x40, 0x0F, 0x39, 0, 0, 0, 0, 0, 0, 0])).runState = .failed .memory ∧
    (stepped (machine [0x40, 0x0F, 0xFC, 0xFF, 0xFF, 0xFF, 0xFF, 0xFF, 0xFF, 0xFF])).runState = .failed .memory ∧
    (stepped (machine [0x40, 0xF1, 0xE8, 3, 0, 0, 0, 0, 0, 0])).runState = .failed .register := by decide
/-- M12: an unaligned load from a constructed memory. -/
theorem test_mrmovq :
    let p : Params := {
      prog := [0x50, 0x21, 3, 0, 0, 0, 0, 0, 0, 0]
      memCap := 16
      memInit := [0, 1, 2, 3, 4, 5, 6, 7, 8, 9, 10, 11, 12, 13, 14, 15] }
    (stepped (State.construct p)).x 2 = 0x0A09080706050403 := by decide
/-- M13, M14. -/
theorem test_mrmovq_order :
    (stepped (machine [0x50, 0xF1, 0xE8, 3, 0, 0, 0, 0, 0, 0])).runState = .failed .memory ∧
    (stepped (machine [0x50, 0xF1, 0, 0, 0, 0, 0, 0, 0, 0])).runState = .failed .register := by decide
/-- A2. -/
theorem test_addq_wraps : (stepped (((machine [0x60, 0x01]).setX 0 1).setX 1 0xFFFFFFFFFFFFFFFF)).x 1 = 0 := by decide
/-- A14, A15. -/
theorem test_addq_sentinel : (stepped (machine [0x60, 0xF1])).runState = .failed .register ∧
    (stepped (machine [0x60, 0x1F])).runState = .failed .register := by decide
/-- A5, A6. -/
theorem test_subq_order : (stepped (((machine [0x61, 0x01]).setX 0 2).setX 1 5)).x 1 = 3 ∧
    (stepped (((machine [0x61, 0x01]).setX 0 5).setX 1 2)).x 1 = 0xFFFFFFFFFFFFFFFD := by decide
/-- A8. -/
theorem test_subq_same : (stepped ((machine [0x61, 0x22]).setX 2 0xDEADBEEF)).x 2 = 0 := by decide
/-- A9. -/
theorem test_andq : (stepped (((machine [0x62, 0x01]).setX 0 0xFFFF0000).setX 1 0x12345678)).x 1 = 0x12340000 := by decide
/-- A11. -/
theorem test_xorq : (stepped (((machine [0x63, 0x01]).setX 0 0xFFFF0000).setX 1 0x12345678)).x 1 = 0xEDCB5678 := by decide
/-- J2, both steps. -/
theorem test_jmp : let t := stepped (machine [0x70, 0xE8, 3, 0, 0, 0, 0, 0, 0, 0])
    t.pc = 1000 ∧ t.runState = .running ∧ (stepped t).runState = .endOfInput ∧ (stepped t).pc = 1000 := by decide
/-- J6. -/
theorem test_reserved_jump : let t := stepped (machine [0x71, 0, 0, 0, 0, 0, 0, 0, 0])
    t.runState = .failed .unimplemented ∧ t.pc = 9 := by decide
/-- K1 to K5, first steps: nothing but `pc`. -/
theorem test_call : stepped (machine [0x80, 0xFF, 0xFF, 0xFF, 0xFF, 0xFF, 0xFF, 0xFF, 0xFF, 0]) =
    (machine [0x80, 0xFF, 0xFF, 0xFF, 0xFF, 0xFF, 0xFF, 0xFF, 0xFF, 0]).setPc 9 := by decide
theorem test_ret : stepped (machine [0x90, 0]) = (machine [0x90, 0]).setPc 1 := by decide
theorem test_pushq : stepped (machine [0xA0, 0xFF, 0]) = (machine [0xA0, 0xFF, 0]).setPc 2 := by decide
theorem test_popq : stepped ((machine [0xB0, 0x3F, 0]).setX 3 9) = ((machine [0xB0, 0x3F, 0]).setX 3 9).setPc 2 := by decide
/-- H4, H6, A16. -/
theorem test_sequencer : (stepped (machine [])).runState = .endOfInput ∧
    (let t := stepped ((machine [0x10, 0xFF]).setPc 1); t.runState = .failed .code ∧ t.pc = 1) ∧
    (stepped (machine [0x64, 0x01])).runState = .failed .code := by decide
theorem test_fetch_word_runs_first :
    (stepped (State.reset.withFetchWord 80 0x0102030405060708F630)).x 6 = 0x0102030405060708 ∧
    (stepped (State.reset.withFetchWord 8 0x90)).pc = 1 := by decide
/-- 95 section 1.3, with a capacity of 4. -/
theorem test_stack_primitives :
    let s := State.construct { prog := [], memCap := 4, memInit := [0, 0, 0, 0] }
    pop s = .error .memory ∧
    ((push s 0xAA).bind fun t => push t 0xBB) = .ok ((s.setSp 2).setMem [(2, 0xBB), (3, 0xAA)]) ∧
    push (s.setSp 0) 0xFF = .error .memory ∧
    pushNWith .block (s.setSp 1) [1, 2] = .error .memory ∧
    pushNWith .sequential (s.setSp 2) [1, 2] = .ok ((s.setSp 0).setMem [(0, 2), (1, 1)]) ∧
    pushNWith .block (s.setSp 2) [1, 2] = .ok ((s.setSp 0).setMem [(0, 1), (1, 2)]) := by decide
/-- R40's examples. -/
theorem test_resolve : resolve ((machine []).setX 1 0x100) ⟨1, -8⟩ = 0xF8 ∧
    resolve (machine []) ⟨1, -1⟩ = 0xFFFFFFFFFFFFFFFF ∧
    resolve ((machine []).setX 1 0xFFFFFFFFFFFFFFF8) ⟨1, 16⟩ = 8 ∧
    resolve ((machine []).setX 15 7) ⟨15, 0x20⟩ = 0x20 := by decide
/-- R41. -/
theorem test_pointer_wraps : pointerAdd ⟨3, 2 ^ 63 - 1⟩ 1 = ⟨3, -2 ^ 63⟩ ∧ pointerSub ⟨3, 0⟩ 5 = ⟨3, -5⟩ := by decide
theorem test_memory_canonical : Memory.write [(3, 1), (5, 2)] 5 0 = [(3, 1)] ∧
    Memory.write [(3, 1), (5, 2)] 4 9 = [(3, 1), (4, 9), (5, 2)] ∧ Memory.wf [(3, 1), (3, 2)] = false ∧
    Memory.wf [(3, 0)] = false := by decide

-- Witnesses: for every statement with hypotheses, a concrete case that meets all of them, clause by clause.

theorem witness_DecodeEncodeRoundTrip : Instr.wellFormed (.rmmovq 15 ⟨15, -2 ^ 63⟩) = true ∧
    Instr.wellFormed (.mrmovq ⟨0, 2 ^ 63 - 1⟩ 3) = true := by decide
theorem witness_DecodedBytesReencode : decode [0x60, 0x12, 7] = .ok (.addq 1 2, 2) ∧
    decode [0x30, 0x05, 1, 0, 0, 0, 0, 0, 0, 0] = .ok (.irmovq 1 5, 10) := by decide
/-- Every clause of the classification, at the edges of the ranges. -/
theorem witness_FirstByteClassification :
    [0x00, 0x01, 0x1F, 0x20, 0x2F, 0x30, 0x50, 0x5F, 0x60, 0x63, 0x64, 0x6F, 0x70, 0x7F, 0x80, 0x90, 0xA0, 0xB0, 0xC0,
      0xFF].map tableLength =
    [some 1, none, none, some 2, some 2, some 10, some 10, none, some 2, some 2, none, none, some 9, some 9, some 9,
      some 1, some 2, some 2, none, none] := by decide
theorem witness_LengthFixedByFamilyNibble : (0x70 : Byte).extractLsb' 4 4 = (0x7F : Byte).extractLsb' 4 4 ∧
    decode [0x70, 1, 0, 0, 0, 0, 0, 0, 0] = .ok (.jmp 1, 9) ∧
    decode [0x7F, 1, 0, 0, 0, 0, 0, 0, 0] = .ok (.j15 1, 9) := by decide
theorem witness_DecodeReadsOnlyItsOwnBytes : decode [0x20, 0x12, 0xFF] = .ok (.rrmovq 1 2, 2) := by decide
theorem witness_StepRunsDecodedInstruction :
    (let s := (machine [0x10, 0x60, 0x12]).setPc 1;
      s.runState = .running ∧ s.pc.toNat < s.prog.length ∧ decode (s.prog.drop s.pc.toNat) = .ok (.addq 1 2, 2)) ∧
    Instr.wellFormed (.rmmovq 0 ⟨1, -1⟩) = true ∧ RunsBytes (machine (encode (.rmmovq 0 ⟨1, -1⟩))) (encode (.rmmovq 0 ⟨1, -1⟩)) :=
  ⟨by decide, by decide, by decide, by decide⟩
theorem witness_UnrecognizedByteFailsWithCode : (machine [0xC0]).runState = .running ∧
    (machine [0xC0]).prog[(machine [0xC0]).pc.toNat]? = some 0xC0 ∧ tableLength 0xC0 = none := by decide
/-- One byte short, and exactly at the end of the stream. -/
theorem witness_TruncatedOrPastTheEndEndsRun :
    (let s := machine [0x60];
      s.runState = .running ∧ s.prog[s.pc.toNat]? = some 0x60 ∧ tableLength 0x60 = some 2 ∧
        s.prog.length < s.pc.toNat + 2) ∧
    (let s := (machine [0x10]).setPc 1; s.runState = .running ∧ s.prog.length ≤ s.pc.toNat) := by decide
theorem witness_RunningMachineAlwaysSteps : State.reset.runState = .running := by decide
theorem witness_EndedMachineIsAbsorbing : (State.reset.setRunState .halted).runState ≠ .running ∧
    (State.reset.setRunState .endOfInput).runState ≠ .running ∧
    (State.reset.setRunState (.failed .memory)).runState ≠ .running := by decide
theorem witness_HaltEndsTheRunSuccessfully : RunsBytes (machine [0x00]) [0x00] := ⟨by decide, by decide⟩
theorem witness_NopChangesNothing : RunsBytes (machine [0x10]) [0x10] := ⟨by decide, by decide⟩
theorem witness_RrmovqCopiesRegister : RunsBytes (machine [0x20, 0xFE]) [0x20, 0xFE] := ⟨by decide, by decide⟩
theorem witness_ReservedMovesFailUnimplemented : RunsBytes (machine [0x2F, 0xFF]) [0x2F, 0xFF] := ⟨by decide, by decide⟩
theorem witness_IrmovqLoadsImmediate :
    RunsBytes (machine [0x30, 0x0E, 1, 2, 3, 4, 5, 6, 7, 8]) [0x30, 0x0E, 1, 2, 3, 4, 5, 6, 7, 8] := ⟨by decide, by decide⟩
theorem witness_RmmovqStoresEightBytes :
    RunsBytes (machine [0x40, 0x0F, 56, 0, 0, 0, 0, 0, 0, 0]) [0x40, 0x0F, 56, 0, 0, 0, 0, 0, 0, 0] :=
  ⟨by decide, by decide⟩
/-- The three clauses at the bound: id 15, one address too far, the last address in bounds. -/
theorem witness_RmmovqStoresEightBytes_clauses :
    (machine []).memCap < (resolve (machine []) ⟨15, 57⟩).toNat + 8 ∧
    ¬ (machine []).memCap < (resolve (machine []) ⟨15, 56⟩).toNat + 8 ∧ (14 : RegId) ≠ 15 ∧
    (machine []).mem.wf = true := by decide
theorem witness_MrmovqLoadsEightBytes :
    RunsBytes (machine [0x50, 0xF1, 0, 0, 0, 0, 0, 0, 0, 0x80]) [0x50, 0xF1, 0, 0, 0, 0, 0, 0, 0, 0x80] :=
  ⟨by decide, by decide⟩
theorem witness_arithmetic : RunsBytes (machine [0x60, 0xF1]) [0x60, 0xF1] ∧ RunsBytes (machine [0x61, 0x12]) [0x61, 0x12] ∧
    RunsBytes (machine [0x62, 0x12]) [0x62, 0x12] ∧ RunsBytes (machine [0x63, 0x12]) [0x63, 0x12] :=
  ⟨⟨by decide, by decide⟩, ⟨by decide, by decide⟩, ⟨by decide, by decide⟩, ⟨by decide, by decide⟩⟩
theorem witness_JmpLoadsProgramCounter :
    RunsBytes (machine [0x70, 9, 0, 0, 0, 0, 0, 0, 0]) [0x70, 9, 0, 0, 0, 0, 0, 0, 0] ∧
    (machine [0x70, 9, 0, 0, 0, 0, 0, 0, 0]).runState = .running ∧
    (machine [0x70, 9, 0, 0, 0, 0, 0, 0, 0]).prog.length ≤ (9 : Word).toNat := ⟨⟨by decide, by decide⟩, by decide, by decide⟩
theorem witness_ReservedJumpsFailUnimplemented :
    RunsBytes (machine [0x7F, 1, 2, 3, 4, 5, 6, 7, 8]) [0x7F, 1, 2, 3, 4, 5, 6, 7, 8] := ⟨by decide, by decide⟩
theorem witness_CallRetPushPopDoNothing :
    RunsBytes (machine [0x80, 1, 2, 3, 4, 5, 6, 7, 8]) [0x80, 1, 2, 3, 4, 5, 6, 7, 8] ∧
    RunsBytes (machine [0x90]) [0x90] ∧ RunsBytes (machine [0xA0, 0xFF]) [0xA0, 0xFF] ∧
    RunsBytes (machine [0xB0, 0xFF]) [0xB0, 0xFF] ∧
    ((machine [0x80, 1, 2, 3, 4, 5, 6, 7]).runState = .running ∧
      (machine [0x80, 1, 2, 3, 4, 5, 6, 7]).prog[0]? = some 0x80 ∧
      (machine [0x80, 1, 2, 3, 4, 5, 6, 7]).prog.length < (machine [0x80, 1, 2, 3, 4, 5, 6, 7]).pc.toNat + 9) :=
  ⟨⟨by decide, by decide⟩, ⟨by decide, by decide⟩, ⟨by decide, by decide⟩, ⟨by decide, by decide⟩, by decide⟩
/-- Each of the four failure kinds. -/
theorem witness_FailingStepLeavesNoTraceButPc :
    (∃ t, step (machine [0xC0]) = .next t ∧ t.runState = .failed .code) ∧
    (∃ t, step (machine [0x20, 0xF1]) = .next t ∧ t.runState = .failed .register) ∧
    (∃ t, step (machine [0x40, 0x0F, 57, 0, 0, 0, 0, 0, 0, 0]) = .next t ∧ t.runState = .failed .memory) ∧
    (∃ t, step (machine [0x21, 0x00]) = .next t ∧ t.runState = .failed .unimplemented) :=
  ⟨⟨_, rfl, rfl⟩, ⟨_, rfl, rfl⟩, ⟨_, rfl, rfl⟩, ⟨_, rfl, rfl⟩⟩
/-- A store, and an instruction that writes a register. -/
theorem witness_StepFootprint :
    (let s := (machine [0x40, 0x0F, 56, 0, 0, 0, 0, 0, 0, 0]).setX 0 7;
      s.pc.toNat < s.prog.length ∧ decode (s.prog.drop s.pc.toNat) = .ok (.rmmovq 0 ⟨15, 56⟩, 10) ∧
        ∃ t, step s = .next t) ∧
    (let s := machine [0x63, 0x12];
      s.pc.toNat < s.prog.length ∧ decode (s.prog.drop s.pc.toNat) = .ok (.xorq 1 2, 2) ∧ ∃ t, step s = .next t) :=
  ⟨⟨by decide, by decide, _, rfl⟩, ⟨by decide, by decide, _, rfl⟩⟩
/-- A jump, another instruction, a failing loop test, a failing decode. -/
theorem witness_PcWrittenByDecoderAndJmpOnly :
    (∃ t, step (machine [0x70, 9, 0, 0, 0, 0, 0, 0, 0]) = .next t) ∧
    decode ((machine [0x70, 9, 0, 0, 0, 0, 0, 0, 0]).prog.drop 0) = .ok (.jmp 9, 9) ∧
    (∃ t, step (machine [0x10]) = .next t) ∧ decode ((machine [0x10]).prog.drop 0) = .ok (.nop, 1) ∧
    (∃ t, step (machine []) = .next t) ∧ (machine []).prog.length ≤ (machine []).pc.toNat ∧
    (∃ t, step (machine [0xC0]) = .next t) ∧ decode ((machine [0xC0]).prog.drop 0) = .error .code :=
  ⟨⟨_, rfl⟩, by decide, ⟨_, rfl⟩, by decide, ⟨_, rfl⟩, by decide, ⟨_, rfl⟩, by decide⟩
/-- Each of the four ways. -/
theorem witness_WaysARunEnds :
    (∃ t, step (machine [0x00]) = .next t ∧ t.runState = .halted) ∧
    (∃ t, step (machine [0x60]) = .next t ∧ t.runState = .endOfInput) ∧
    (∃ t, step (machine [0xC0]) = .next t ∧ t.runState = .failed .code) ∧
    (∃ t, step (machine [0x71, 0, 0, 0, 0, 0, 0, 0, 0]) = .next t ∧ t.runState = .failed .unimplemented) :=
  ⟨⟨_, rfl, rfl⟩, ⟨_, rfl, rfl⟩, ⟨_, rfl, rfl⟩, ⟨_, rfl, rfl⟩⟩
/-- A state that holds the invariant with a byte at the top of memory and the stack full, and a step that stores. -/
theorem witness_StepKeepsInvariant :
    let s := (((machine [0x40, 0x0F, 55, 0, 0, 0, 0, 0, 0, 0]).setX 0 0x0100000000000000).setMem [(63, 1)]).setSp 0
    s.Inv ∧ ∃ t, step s = .next t := ⟨by decide, _, rfl⟩
theorem witness_Construction :
    Params.wellFormed { prog := [0x00], memCap := 3, memInit := [1, 0, 2], pcInit := 5 } = true := by decide
theorem witness_StepKeepsParametersAndCursor : ∃ t, step (machine [0xA0, 0xFF]) = .next t := ⟨_, rfl⟩
/-- Two machines that differ in both hidden places, one running and one ended. -/
theorem witness_HiddenSlotAndCursorUnobservable :
    EqualButHidden (machine [0x60, 0x12]) (((machine [0x60, 0x12]).setX 15 7).setSp 3) ∧
    (∃ t, step (machine [0x60, 0x12]) = .next t) ∧
    EqualButHidden ((machine []).setRunState .halted) ((((machine []).setRunState .halted).setX 15 7).setSp 3) ∧
    step ((machine []).setRunState .halted) = .fault .terminated :=
  ⟨⟨by decide, rfl, rfl, rfl, rfl, rfl⟩, ⟨_, rfl⟩, ⟨by decide, rfl, rfl, rfl, rfl, rfl⟩, rfl⟩
/-- `irmovq $0x70, r0 ; halt`: byte `70` stands in an operand and is never a first byte. -/
theorem witness_RunWithoutJmpEnds :
    let s := machine [0x30, 0xF0, 0x70, 0, 0, 0, 0, 0, 0, 0, 0x00]
    s.prog.length < 2 ^ 64 ∧ ∀ k, k ≤ s.prog.length → ¬ DecodesJmp (runFor k s) := by
  intro s
  have halts : ∀ k, k ≤ 11 → 2 ≤ k → (runFor k s).runState = .halted := by decide
  refine ⟨by decide, fun k hk => ?_⟩
  rintro ⟨hr, dest, n, h⟩
  match k with
  | 0 => exact nomatch h
  | 1 => exact nomatch h
  | k + 2 => exact nomatch (halts _ hk (by omega)).symm.trans hr
theorem witness_JmpToItselfNeverEnds :
    RunsBytes ((machine [0x10, 0x70, 1, 0, 0, 0, 0, 0, 0, 0]).setPc 1) [0x70, 1, 0, 0, 0, 0, 0, 0, 0] ∧
    LE8 1 0 0 0 0 0 0 0 = ((machine [0x10, 0x70, 1, 0, 0, 0, 0, 0, 0, 0]).setPc 1).pc :=
  ⟨⟨by decide, by decide⟩, by decide⟩
/-- In bounds at the last address, out of bounds one further. -/
theorem witness_MemReadWrite : (machine []).mem.wf = true ∧ ¬ (machine []).memCap < (62 : Word).toNat + 2 ∧
    (machine []).memCap < (63 : Word).toNat + 2 ∧ ∃ t, memWrite (machine []) 62 2 0x1234 = .ok t :=
  ⟨by decide, by decide, by decide, _, rfl⟩
/-- Two accesses that do not overlap and touch, below and above. -/
theorem witness_LoadReturnsMostRecentStore : (∃ t, memWrite (machine []) 8 8 5 = .ok t) ∧
    (0 : Word).toNat + 8 ≤ (8 : Word).toNat ∧ (8 : Word).toNat + 8 ≤ (16 : Word).toNat :=
  ⟨⟨_, rfl⟩, by decide, by decide⟩
/-- Empty, in between, full. -/
theorem witness_StackPrimitives : (machine []).Inv ∧ (machine []).sp = (machine []).memCap ∧
    ((machine []).setSp 1).Inv ∧ ((machine []).setSp 0).Inv ∧ (∃ t, push (machine []) 7 = .ok t) ∧
    (∃ t, pushN (machine []) [1, 2] = .ok t) ∧ (∃ t, pop ((machine []).setSp 63) = .ok (0, t)) :=
  ⟨by decide, by decide, by decide, by decide, ⟨_, rfl⟩, ⟨_, rfl⟩, ⟨_, rfl⟩⟩
theorem witness_PushNIsAtomicInEitherOrder : (machine []).mem.wf = true ∧ ((machine []).setSp 1).sp < [1, 2].length ∧
    ¬ ((machine []).setSp 2).sp < [1, 2].length := by decide
theorem witness_PlainByteAccess : (machine []).mem.wf = true ∧ (machine []).memCap ≤ (64 : Word).toNat ∧
    ¬ (machine []).memCap ≤ (63 : Word).toNat := by decide
theorem witness_ResolveAddsSignedOffset : Pointer.wellFormed ⟨15, -2 ^ 63⟩ = true ∧
    Pointer.wellFormed ⟨14, 2 ^ 63 - 1⟩ = true := by decide

end Sys2Proof.Tests
end

section
/-! Construction (R7, R27, R110): the host's parameters in range give a machine that meets the invariant. -/

namespace Sys2Proof

/-- The three ranges of R7. -/
theorem Params.wellFormed_iff (p : Params) :
    p.wellFormed = true ↔ p.prog.length < 2 ^ 64 ∧ p.memCap < 2 ^ 64 ∧ p.memInit.length = p.memCap := by
  simp [Params.wellFormed, and_assoc]

namespace Machine

/-- A buffer built from `bs` lists no address beyond its last byte. -/
theorem Memory.bounded_ofBytes (bs : List Byte) : ∀ c ∈ Memory.ofBytes bs, c.1 < bs.length :=
  Memory.bounded_writeBytes (m := []) (by simp) 0 bs (by simp)

/-- Settles O32: the cursor starts at MEM_CAP, and the memory, written from the MEM_CAP bytes of MEM_INIT, is in canonical
form and lists nothing at or above MEM_CAP. -/
theorem constructionEstablishesInvariant : Obligations.ConstructionEstablishesInvariant := by
  intro p hp
  obtain ⟨hprog, hcap, hinit⟩ := (Params.wellFormed_iff p).1 hp
  have hbound : ∀ c ∈ Memory.ofBytes p.memInit, c.1 < p.memCap := hinit ▸ Memory.bounded_ofBytes p.memInit
  exact ⟨le_rfl, hcap, hprog, Memory.wf_ofBytes p.memInit, hbound⟩

end Machine

end Sys2Proof
end

section
/-! The state (spec/10_state.md): what every step keeps, what one step touches, and what no step can observe. -/

namespace Sys2Proof

/-- The round trip, format by format: the opcode map names the row of each encoding, and the field lemma of that format
reads the operands back (R53, R66). -/
theorem decode_encode {i : Instr} (hi : i.wellFormed = true) (rest : List Byte) :
    decode (encode i ++ rest) = .ok (i, (encode i).length) := by
  have hpointer {p : Pointer} (hp : p.wellFormed = true) : pointerOf p.base (bits64 p.off) = p := by
    obtain ⟨hlo, hhi⟩ : -2 ^ 63 ≤ p.off ∧ p.off < 2 ^ 63 := by simpa [Pointer.wellFormed] using hp
    exact pointerOf_bits64 p hlo hhi
  cases i with
  | halt | nop | ret => exact decode_encF1 rfl rest
  | irmovq v rB => exact decode_encF10 (mk := fun _ rB v => .irmovq v rB) rfl rNONE rB v rest
  | rmmovq rA p =>
    have h := decode_encF10 (icode := Config.opcRmmov) rfl rA p.base (bits64 p.off) rest
    rwa [hpointer hi] at h
  | mrmovq p rA =>
    have h := decode_encF10 (icode := Config.opcMrmov) rfl rA p.base (bits64 p.off) rest
    rwa [hpointer hi] at h
  | jmp d | j1 d | j2 d | j3 d | j4 d | j5 d | j6 d | j7 d | j8 d | j9 d | j10 d | j11 d | j12 d | j13 d | j14 d
  | j15 d | call d => exact decode_encF9 rfl d rest
  | _ => exact decode_encF2 rfl _ _ rest

theorem encode_ne_nil (i : Instr) : encode i ≠ [] := by
  cases i <;> exact List.cons_ne_nil _ _

namespace Machine

-- From bytes at `pc` to the instruction a step runs.

/-- A step of a running machine whose bytes at `pc` decode runs the decoded instruction, `pc` advanced (R17, R90). -/
theorem step_eq_exec {s : State} {i : Instr} {n : Nat} (hr : s.runState = .running) (hpc : s.pc.toNat < s.prog.length)
    (hd : decode (stream s) = .ok (i, n)) : step s = exec i (s.setPc (s.pc + BitVec.ofNat 64 n)) :=
  (step_of_running hr).2 i _ (fetchDecode_eq_ok_iff.2 ⟨hpc, n, hd, rfl⟩)

/-- The bytes a machine runs stand at the front of its stream (R50). -/
theorem RunsBytes.stream_eq {s : State} {bs : List Byte} (h : RunsBytes s bs) : ∃ rest, stream s = bs ++ rest := by
  obtain ⟨-, hbytes⟩ := h
  have htake : (stream s).take bs.length = bs := by
    apply List.ext_getElem?
    intro k
    by_cases hk : k < bs.length
    · rw [List.getElem?_take_of_lt hk, stream, List.getElem?_drop, hbytes k hk]
    · simp [hk]
  refine ⟨(stream s).drop bs.length, ?_⟩
  calc stream s = (stream s).take bs.length ++ (stream s).drop bs.length := (List.take_append_drop ..).symm
    _ = bs ++ (stream s).drop bs.length := by rw [htake]

theorem RunsBytes.pc_lt {s : State} {bs : List Byte} (h : RunsBytes s bs) (hne : bs ≠ []) :
    s.pc.toNat < s.prog.length := by
  obtain ⟨rest, hrest⟩ := h.stream_eq
  by_contra hge
  have hnil : stream s = [] := List.drop_eq_nil_of_le (Nat.le_of_not_lt hge)
  exact hne (List.append_eq_nil_iff.1 (hrest.symm.trans hnil)).1

/-- Settles O7: the step on decoded bytes, and the round trip for bytes that are an encoding. -/
theorem stepRunsDecodedInstruction : Obligations.StepRunsDecodedInstruction := by
  refine ⟨fun s i n hr hpc hd => step_eq_exec hr hpc hd, fun s i hi hb => ?_⟩
  obtain ⟨rest, hrest⟩ := hb.stream_eq
  have hd : decode (stream s) = .ok (i, (encode i).length) := by rw [hrest, decode_encode hi rest]
  exact step_eq_exec hb.1 (hb.pc_lt (encode_ne_nil i)) hd

/-- A step from a stream that decodes answers what the decoded instruction answers. -/
theorem exec_of_step {s t : State} {i : Instr} {n : Nat} (h : step s = .next t) (hpc : s.pc.toNat < s.prog.length)
    (hd : decode (stream s) = .ok (i, n)) : exec i (s.setPc (s.pc + BitVec.ofNat 64 n)) = .next t := by
  rw [← step_eq_exec (step_cases h).1 hpc hd, h]

/-- A step that decodes nothing only takes a condition (R90, R53). -/
theorem takeCondition_of_step {s t : State} (h : step s = .next t)
    (hd : s.prog.length ≤ s.pc.toNat ∨ ∃ e, decode (stream s) = .error e) : ∃ k, t = takeCondition k s := by
  obtain ⟨-, ⟨k, -, ht⟩ | ⟨i, n, hpc, hok, -⟩⟩ := step_cases h
  · exact ⟨k, ht⟩
  · obtain hge | ⟨e, he⟩ := hd
    · omega
    · rw [hok] at he
      cases he

/-- A running machine has a step: neither the loop test, nor the decode, nor any instruction faults (R90). -/
theorem exists_step_of_running {s : State} (hr : s.runState = .running) : ∃ t, step s = .next t := by
  cases hf : fetchDecode s with
  | error k => exact ⟨_, (step_of_running hr).1 k hf⟩
  | ok r =>
    obtain ⟨i, u⟩ := r
    obtain ⟨t, ht, -⟩ := exec_cases i u
    exact ⟨t, ((step_of_running hr).2 i u hf).trans ht⟩

-- What every step keeps.

/-- A property that writes of `pc`, conditions, writes of real registers and in-bounds stores keep, every step keeps: a
step is made of nothing else. -/
theorem step_preserves {P : State → Prop} (hpc : ∀ s d, P s → P (s.setPc d)) (hcond : ∀ s k, P s → P (takeCondition k s))
    (hreg : ∀ s r v, r ≠ rNONE → P s → P (s.setX r v))
    (hstore : ∀ s a bs, a + bs.length ≤ s.memCap → P s → P (s.setMem (s.mem.writeBytes a bs)))
    {s t : State} (h : step s = .next t) (hs : P s) : P t := by
  obtain ⟨-, ⟨k, -, rfl⟩ | ⟨i, n, -, -, hex⟩⟩ := step_cases h
  · exact hcond s k hs
  · have hadv := hpc s (s.pc + BitVec.ofNat 64 n) hs
    obtain ⟨t', ht', hcases⟩ := exec_cases i (s.setPc (s.pc + BitVec.ofNat 64 n))
    obtain rfl : t' = t := Host.Outcome.next.inj (ht'.symm.trans hex)
    obtain ⟨k, rfl⟩ | rfl | ⟨r, v, hr, rfl⟩ | ⟨rA, p, -, -, hbound, rfl⟩ | ⟨d, -, rfl⟩ := hcases
    · exact hcond _ k hadv
    · exact hadv
    · exact hreg _ r v hr hadv
    · exact hstore _ _ _ (by simpa using hbound) hadv
    · exact hpc _ d hadv

/-- A run of bytes stored below MEM_CAP keeps the invariant. -/
theorem State.Inv.setMem_writeBytes {s : State} (h : s.Inv) {a : Nat} {bs : List Byte} (hb : a + bs.length ≤ s.memCap) :
    (s.setMem (s.mem.writeBytes a bs)).Inv := by
  obtain ⟨hsp, hcap, hprog, hwf, hbound⟩ := h
  exact ⟨hsp, hcap, hprog, Memory.wf_writeBytes hwf a bs, Memory.bounded_writeBytes hbound a bs hb⟩

/-- A cursor in [0, MEM_CAP] keeps the invariant (R19). -/
theorem State.Inv.setSp {s : State} (h : s.Inv) {n : Nat} (hn : n ≤ s.memCap) : (s.setSp n).Inv :=
  ⟨hn, h.2⟩

/-- Settles O31: of the four updates a step is made of, only the store touches a field the invariant speaks of. -/
theorem stepKeepsInvariant : Obligations.StepKeepsInvariant :=
  fun _ _ hs h => step_preserves (P := State.Inv) (fun _ _ h => h) (fun _ _ h => h) (fun _ _ _ _ h => h)
    (fun _ _ _ hb h => h.setMem_writeBytes hb) h hs

/-- Settles O35: none of the four updates a step is made of writes PROG, MEM_CAP or the cursor. -/
theorem stepKeepsParametersAndCursor : Obligations.StepKeepsParametersAndCursor :=
  fun s _ h => step_preserves (P := SameFixed s) (fun _ _ h => h) (fun _ _ h => h) (fun _ _ _ _ h => h)
    (fun _ _ _ _ h => h) h ⟨rfl, rfl, rfl⟩

/-- No step writes the slot of the sentinel (R11). -/
theorem step_x_rNONE {s t : State} (h : step s = .next t) : t.x rNONE = s.x rNONE :=
  step_preserves (P := fun u => u.x rNONE = s.x rNONE) (fun _ _ h => h) (fun _ _ h => h)
    (fun u r v hr hu => by simp [hr.symm, hu]) (fun _ _ _ _ h => h) h rfl

-- What one instruction touches.

theorem arithmetic_x_of_ne {op : (vB vA : Word) → Word} {rA rB r : RegId} {s t : State}
    (h : arithmetic op rA rB s = .next t) (hr : r ≠ rB) : t.x r = s.x r := by
  obtain rfl := Host.Outcome.next.inj ((arithmetic_eq op rA rB s).symm.trans h)
  split <;> simp [hr]

/-- An instruction writes no register but its destination (R15). -/
theorem exec_x_of_ne_destination {i : Instr} {s t : State} {r : RegId} (h : exec i s = .next t)
    (hr : destination i ≠ some r) : t.x r = s.x r := by
  have hne {d : RegId} (hd : destination i = some d) : r ≠ d := fun he => hr (he ▸ hd)
  cases i with
  | rrmovq rA rB =>
    obtain rfl := Host.Outcome.next.inj ((execRrmovq_eq rA rB s).symm.trans h)
    split <;> simp [hne rfl]
  | irmovq v rB =>
    obtain rfl := Host.Outcome.next.inj ((execIrmovq_eq v rB s).symm.trans h)
    split <;> simp [hne rfl]
  | mrmovq p rA =>
    obtain rfl := Host.Outcome.next.inj ((execMrmovq_eq p rA s).symm.trans h)
    split
    · split <;> simp [hne rfl]
    · rfl
  | rmmovq rA p =>
    obtain rfl := Host.Outcome.next.inj ((execRmmovq_eq rA p s).symm.trans h)
    split
    · rfl
    · split <;> rfl
  | addq rA rB | subq rA rB | andq rA rB | xorq rA rB => exact arithmetic_x_of_ne h (hne rfl)
  | _ =>
    obtain rfl := Host.Outcome.next.inj h
    rfl

/-- No instruction but `rmmovq` writes memory (R20). -/
theorem exec_sameBytes {i : Instr} {s t : State} (h : exec i s = .next t) (hi : ∀ rA p, i ≠ .rmmovq rA p) :
    SameBytes s t := by
  obtain ⟨t', ht', hcases⟩ := exec_cases i s
  obtain rfl : t' = t := Host.Outcome.next.inj (ht'.symm.trans h)
  obtain ⟨k, rfl⟩ | rfl | ⟨r, v, -, rfl⟩ | ⟨rA, p, rfl, -⟩ | ⟨d, -, rfl⟩ := hcases
  · exact fun _ => rfl
  · exact fun _ => rfl
  · exact fun _ => rfl
  · exact absurd rfl (hi rA p)
  · exact fun _ => rfl

/-- `rmmovq` writes the eight bytes from its resolved address alone (R75). -/
theorem execRmmovq_sameBytesOutside {rA : RegId} {p : Pointer} {s t : State} (h : execRmmovq rA p s = .next t) :
    SameBytesOutside (resolve s p).toNat 8 s t := by
  obtain rfl := Host.Outcome.next.inj ((execRmmovq_eq rA p s).symm.trans h)
  intro b hb
  split
  · rfl
  · split
    · exact Memory.read_writeBytes_outside s.mem (by simpa using hb)
    · rfl

/-- Settles O28: the step is the decoded instruction after the advance of `pc`, which touches no register, no byte and no
resolved address; then each instruction's own frame. -/
theorem stepFootprint : Obligations.StepFootprint := by
  intro s t i n hpc hd h
  have hex := exec_of_step h hpc hd
  refine ⟨fun r hr => ?_, ?_⟩
  · obtain hr | rfl := hr
    · have hframe := exec_x_of_ne_destination hex hr
      exact hframe
    · exact step_x_rNONE h
  · split
    · have hframe := execRmmovq_sameBytesOutside hex
      exact hframe
    · rename_i hi
      have hframe := exec_sameBytes hex hi
      exact hframe

/-- No instruction but `jmp` writes `pc` (R17). -/
theorem exec_pc_of_ne_jmp {i : Instr} {s t : State} (h : exec i s = .next t) (hi : ∀ d, i ≠ .jmp d) : t.pc = s.pc := by
  obtain ⟨t', ht', hcases⟩ := exec_cases i s
  obtain rfl : t' = t := Host.Outcome.next.inj (ht'.symm.trans h)
  obtain ⟨k, rfl⟩ | rfl | ⟨r, v, -, rfl⟩ | ⟨rA, p, -, -, -, rfl⟩ | ⟨d, rfl, -⟩ := hcases
  · rfl
  · rfl
  · rfl
  · rfl
  · exact absurd rfl (hi d)

/-- Settles O29: a decoded `jmp` loads its target, any other decoded instruction keeps the advanced `pc`, and a step that
decodes nothing only takes a condition. -/
theorem pcWrittenByDecoderAndJmpOnly : Obligations.PcWrittenByDecoderAndJmpOnly := by
  intro s t h
  refine ⟨fun i n hpc hd => ⟨?_, fun hi => exec_pc_of_ne_jmp (exec_of_step h hpc hd) hi⟩, fun hd => ?_⟩
  · rintro dest rfl
    obtain rfl := Host.Outcome.next.inj (exec_of_step h hpc hd)
    rfl
  · obtain ⟨k, rfl⟩ := takeCondition_of_step h hd
    rfl

-- What no step can observe: replacing `x[15]` and the cursor commutes with every operation a step is made of.

/-- `map_bind` for the model's own spelling of the two operations. -/
theorem except_bind_map {α : Type} (m : Except Condition α) (f : α → Except Condition State) (g : State → State) :
    (m.bind fun a => (f a).map g) = (m.bind f).map g :=
  (map_bind g m f).symm

/-- The state with the two unobservable places, `x[15]` and the stack cursor, replaced (R11, R19, R49). -/
def State.withHidden (v : Word) (n : Nat) (s : State) : State := (s.setX rNONE v).setSp n

section
variable (v : Word) (n : Nat) (s : State)

@[simp] theorem State.withHidden_pc : (s.withHidden v n).pc = s.pc := rfl
@[simp] theorem State.withHidden_mem : (s.withHidden v n).mem = s.mem := rfl
@[simp] theorem State.withHidden_sp : (s.withHidden v n).sp = n := rfl
@[simp] theorem State.withHidden_runState : (s.withHidden v n).runState = s.runState := rfl
@[simp] theorem State.withHidden_prog : (s.withHidden v n).prog = s.prog := rfl
@[simp] theorem State.withHidden_memCap : (s.withHidden v n).memCap = s.memCap := rfl

@[simp] theorem State.x_withHidden (r : RegId) : (s.withHidden v n).x r = if r = rNONE then v else s.x r := by
  simp [State.withHidden]

/-- The states that agree with `s` in all but the hidden places are those with the hidden places replaced. -/
theorem EqualButHidden_withHidden : EqualButHidden s (s.withHidden v n) :=
  ⟨fun r hr => by simp [hr], rfl, rfl, rfl, rfl, rfl⟩

theorem EqualButHidden.eq_withHidden {s s' : State} (h : EqualButHidden s s') :
    s' = s.withHidden (s'.x rNONE) s'.sp := by
  obtain ⟨hx, hpc, hmem, hrun, hprog, hcap⟩ := h
  have hregs : s'.regs = (s.withHidden (s'.x rNONE) s'.sp).regs := by
    refine State.regs_eq_of_x_eq fun r => ?_
    rw [State.x_withHidden]
    split
    · rename_i hr
      rw [hr]
    · rename_i hr
      exact hx r hr
  calc s' = ⟨s'.regs, s'.pc, s'.mem, s'.sp, s'.runState, s'.prog, s'.memCap⟩ := rfl
    _ = s.withHidden (s'.x rNONE) s'.sp := by
      rw [hregs, hpc, hmem, hrun, hprog, hcap]
      rfl

/-- Writes of a real register and of the hidden slot do not depend on their order. -/
theorem State.setX_withHidden {r : RegId} (hr : r ≠ rNONE) (w : Word) :
    (s.withHidden v n).setX r w = (s.setX r w).withHidden v n := by
  have hne : rNONE.toNat ≠ r.toNat := fun he => hr (BitVec.eq_of_toNat_eq he.symm)
  simp [State.withHidden, State.setX, State.setRegs, State.setSp, Vector.set_comm _ _ hne]

@[simp] theorem regRead_withHidden (r : RegId) : regRead (s.withHidden v n) r = regRead s r := by
  by_cases hr : r = rNONE <;> simp [regRead, hr]

@[simp] theorem regWrite_withHidden (r : RegId) (w : Word) :
    regWrite (s.withHidden v n) r w = (regWrite s r w).map (State.withHidden v n) := by
  by_cases hr : r = rNONE
  · simp [regWrite, hr, Except.map]
  · simp [regWrite, hr, Except.map, State.setX_withHidden v n s hr]

@[simp] theorem resolve_withHidden (p : Pointer) : resolve (s.withHidden v n) p = resolve s p := by
  by_cases hp : p.base = rNONE <;> simp [resolve_eq, hp]

@[simp] theorem memRead_withHidden (addr : Word) (k : Nat) : memRead (s.withHidden v n) addr k = memRead s addr k := rfl

@[simp] theorem memWrite_withHidden (addr : Word) (k : Nat) (w : BitVec (8 * k)) :
    memWrite (s.withHidden v n) addr k w = (memWrite s addr k w).map (State.withHidden v n) := by
  by_cases hb : addr.toNat + k ≤ s.memCap <;> simp [memWrite, inBounds, hb, Except.map]
  rfl

/-- An effect whose result commutes with replacing the hidden places concludes alike. -/
theorem conclude_withHidden {r r' : Except Condition State} (hr : r' = r.map (State.withHidden v n)) :
    ∃ t, conclude s r = .next t ∧ conclude (s.withHidden v n) r' = .next (t.withHidden v n) := by
  subst hr
  cases r with
  | ok t => exact ⟨t, rfl, rfl⟩
  | error k => exact ⟨takeCondition k s, rfl, rfl⟩

theorem arithmetic_withHidden (op : (vB vA : Word) → Word) (rA rB : RegId) :
    ∃ t, arithmetic op rA rB s = .next t ∧ arithmetic op rA rB (s.withHidden v n) = .next (t.withHidden v n) :=
  conclude_withHidden v n s (by simp [except_bind_map])

/-- Every instruction commutes with replacing the hidden places. -/
theorem exec_withHidden (i : Instr) :
    ∃ t, exec i s = .next t ∧ exec i (s.withHidden v n) = .next (t.withHidden v n) := by
  cases i with
  | rrmovq rA rB => exact conclude_withHidden v n s (by simp [except_bind_map])
  | irmovq w rB => exact conclude_withHidden v n s (regWrite_withHidden v n s rB w)
  | rmmovq rA p => exact conclude_withHidden v n s (by simp [except_bind_map])
  | mrmovq p rA => exact conclude_withHidden v n s (by simp [except_bind_map])
  | addq rA rB | subq rA rB | andq rA rB | xorq rA rB => exact arithmetic_withHidden v n s _ rA rB
  | jmp d => exact ⟨s.setPc d, rfl, rfl⟩
  | nop | call _ | ret | pushq _ _ | popq _ _ => exact ⟨s, rfl, rfl⟩
  | _ => exact ⟨_, rfl, rfl⟩

/-- Every step commutes with replacing the hidden places. -/
theorem step_withHidden {t : State} (h : step s = .next t) :
    step (s.withHidden v n) = .next (t.withHidden v n) := by
  obtain ⟨hr, ⟨k, hk, rfl⟩ | ⟨i, m, hpc, hd, hex⟩⟩ := step_cases h
  · have hk' : fetchDecode (s.withHidden v n) = .error k := by
      have hcauses := fetchDecode_eq_error_iff.1 hk
      exact fetchDecode_eq_error_iff.2 hcauses
    exact (step_of_running (s := s.withHidden v n) hr).1 k hk'
  · obtain ⟨u, hu, hu'⟩ := exec_withHidden v n (s.setPc (s.pc + BitVec.ofNat 64 m)) i
    obtain rfl : u = t := Host.Outcome.next.inj (hu.symm.trans hex)
    exact (step_eq_exec (s := s.withHidden v n) hr hpc hd).trans hu'

end

/-- Settles O36: the second machine is the first with the hidden places replaced, which commutes with the step. -/
theorem hiddenSlotAndCursorUnobservable : Obligations.HiddenSlotAndCursorUnobservable := by
  intro s s' hs
  refine ⟨fun t h => ?_, fun f h => ?_⟩
  · rw [hs.eq_withHidden]
    exact ⟨_, step_withHidden _ _ s h, EqualButHidden_withHidden _ _ t, rfl, by simp [rNONE]⟩
  · have hended : s.ended := by
      intro hr
      obtain ⟨t, ht⟩ := exists_step_of_running hr
      rw [ht] at h
      cases h
    obtain ⟨-, -, -, hrun, -⟩ := hs
    have hended' : s'.ended := fun hr => hended (hrun.symm.trans hr)
    rw [step_of_ended hended', ← h, step_of_ended hended]

-- The register file, construction, and the stack primitives.

/-- A write of one slot is a write of that slot alone (R12). -/
theorem onlyRegister_setX (s : State) (i : RegId) (v : Word) : OnlyRegister i v s (s.setX i v) :=
  ⟨by simp, fun r hr => by simp [hr], rfl, rfl, fun _ => rfl, rfl, rfl, rfl⟩

/-- Settles O39: validation looks at the id alone, and behind it a write replaces one slot. -/
theorem registerFileValidatedAccess : Obligations.RegisterFileValidatedAccess := by
  intro s i v
  split
  · rename_i hi
    exact ⟨regRead_eq_error_iff.2 ⟨hi, rfl⟩, regWrite_eq_error_iff.2 ⟨hi, rfl⟩⟩
  · rename_i hi
    exact ⟨regRead_eq_ok_iff.2 ⟨hi, rfl⟩, s.setX i v, regWrite_eq_ok_iff.2 ⟨hi, rfl⟩, onlyRegister_setX s i v,
      regRead_eq_ok_iff.2 ⟨hi, by simp⟩⟩

/-- The default of REG_INIT is zero (R27). -/
theorem construct_x_of_default {p : Params} (hp : p.regInit = Vector.replicate 16 0) (r : RegId) :
    (State.construct p).x r = 0 := by
  simp [State.x, hp]

/-- Settles O34: field by field; the bytes of memory are those MEM_INIT was written from. -/
theorem constructionGivesTheHostsParameters : Obligations.ConstructionGivesTheHostsParameters := by
  refine ⟨fun p hp => ⟨fun i => rfl, rfl, fun a ha => ?_, rfl, rfl, rfl, rfl⟩,
    fun prog memInit cap => ⟨rfl, construct_x_of_default rfl⟩⟩
  obtain ⟨-, -, hinit⟩ := (Params.wellFormed_iff p).1 hp
  have ha' : a < p.memInit.length := hinit.symm ▸ ha
  rw [List.getElem?_eq_getElem ha', ← Memory.read_ofBytes p.memInit a ha']
  rfl

/-- Settles O33: reset is a construction from parameters in range, with the defaults of the spec. -/
theorem resetSatisfiesInvariant : Obligations.ResetSatisfiesInvariant :=
  ⟨constructionEstablishesInvariant Config.resetParams (by decide), rfl, rfl, rfl, construct_x_of_default rfl⟩

/-- Under the invariant the free and the used bytes are all of them (R28, R39). -/
theorem State.Inv.unused_add_used {s : State} (h : s.Inv) : unused s + used s = s.memCap :=
  Nat.add_sub_of_le h.1

/-- Bytes laid down from a cursor moved below them keep the invariant and add to the occupancy (R36, R37). -/
theorem State.Inv.stackWrite {s : State} (h : s.Inv) {bs : List Byte} (hb : bs.length ≤ s.sp) {t : State}
    (ht : t = (s.setSp (s.sp - bs.length)).setMem (s.mem.writeBytes (s.sp - bs.length) bs)) :
    t.Inv ∧ used t = used s + bs.length ∧ unused t + used t = s.memCap := by
  have hsp : s.sp ≤ s.memCap := h.1
  have hinv : t.Inv := by
    subst ht
    exact (h.setSp (by omega)).setMem_writeBytes (by simp; omega)
  have hcap : t.memCap = s.memCap := by simp [ht]
  have hcursor : t.sp = s.sp - bs.length := by simp [ht]
  refine ⟨hinv, ?_, hcap ▸ hinv.unused_add_used⟩
  simp only [used, hcap, hcursor]
  omega

/-- Settles O45: Push and PushN lay down bytes below the cursor, Pop moves the cursor up one. -/
theorem stackOccupancy : Obligations.StackOccupancy := by
  intro s h
  refine ⟨h.unused_add_used, fun b t hpush => ?_, fun bs t hpushN => ?_, fun b t hpop => ?_⟩
  · obtain ⟨hpos, ht⟩ := push_eq_ok_iff.1 hpush
    exact h.stackWrite (bs := [b]) hpos ht
  · obtain ⟨hroom, ht⟩ := pushNWith_eq_ok_iff.1 hpushN
    have hlen := length_pushNLayout Config.pushNOrder bs
    have hkept := h.stackWrite (bs := pushNLayout Config.pushNOrder bs) (t := t) (by rwa [hlen]) (by rwa [hlen])
    rwa [hlen] at hkept
  · obtain ⟨hne, -, rfl⟩ := pop_eq_ok_iff.1 hpop
    have hlt : s.sp < s.memCap := Nat.lt_of_le_of_ne h.1 hne
    have hinv : (s.setSp (s.sp + 1)).Inv := h.setSp hlt
    refine ⟨hinv, ?_, hinv.unused_add_used⟩
    simp only [used, State.setSp_sp, State.setSp_memCap]
    omega

end Machine

end Sys2Proof
end

section
/-! Memory, the stack and the pointer unit (spec/20_memory.md): what each access answers, where its bytes lie, and what it
leaves unchanged. -/

namespace Sys2Proof

-- Signed patterns and little-endian values.

/-- Adding the pattern of a signed integer adds the integer modulo 2^64 (R9, R40). -/
theorem toNat_add_bits64 (w : Word) (i : Int) : ((w + bits64 i).toNat : Int) = (w.toNat + i) % 2 ^ 64 := by
  rw [BitVec.toNat_add]
  push_cast
  rw [toNat_bits64]
  omega

theorem Pointer.wellFormed_iff (p : Pointer) : p.wellFormed = true ↔ -2 ^ 63 ≤ p.off ∧ p.off < 2 ^ 63 := by
  simp [Pointer.wellFormed]

/-- A word read as signed is an offset in i64 (R9, R41). -/
theorem Pointer.wellFormed_sext64 (r : RegId) (w : Word) : Pointer.wellFormed ⟨r, sext64 w⟩ = true :=
  (Pointer.wellFormed_iff _).2 ⟨w.le_toInt, w.toInt_lt⟩

namespace Machine

/-- The value of the `n` bytes from `a` is their weighted sum (R9, R31). -/
theorem leNat_readBytes (m : Memory) (a n : Nat) :
    leNat (m.readBytes a n) = ∑ k ∈ Finset.range n, (m.read (a + k)).toNat * 2 ^ (8 * k) := by
  induction n generalizing a with
  | zero => rfl
  | succ n ih =>
    have hshift : ∀ k, (m.read (a + (k + 1))).toNat * 2 ^ (8 * (k + 1)) =
        256 * ((m.read (a + 1 + k)).toNat * 2 ^ (8 * k)) := by
      intro k
      rw [show a + (k + 1) = a + 1 + k by omega]
      ring
    rw [Finset.sum_range_succ', Finset.sum_congr rfl fun k _ => hshift k, ← Finset.mul_sum, ← ih]
    simp [Memory.readBytes, leNat, Nat.add_comm]

/-- The value of `n` bytes fits in `8n` bits. -/
theorem leNat_readBytes_lt (m : Memory) (a n : Nat) : leNat (m.readBytes a n) < 2 ^ (8 * n) := by
  simpa [pow_mul] using leNat_lt (m.readBytes a n)

/-- Memories that agree on a run of bytes answer the same run. -/
theorem Memory.readBytes_congr {m m' : Memory} {a n : Nat} (h : ∀ i < n, m'.read (a + i) = m.read (a + i)) :
    m'.readBytes a n = m.readBytes a n := by
  refine List.ext_getElem (by simp) fun i hi _ => ?_
  have hi : i < n := by simpa using hi
  rw [Memory.getElem_readBytes _ _ _ _ hi, Memory.getElem_readBytes _ _ _ _ hi, h i hi]

/-- A store of bytes touches those bytes alone (R34). -/
theorem onlyBytes_writeBytes (s : State) (a : Nat) (bs : List Byte) :
    OnlyBytes a bs.length s (s.setMem (s.mem.writeBytes a bs)) :=
  ⟨fun _ h => Memory.read_writeBytes_outside s.mem h, fun _ => rfl, rfl, rfl, rfl, rfl, rfl⟩

-- The typed accesses.

/-- Settles O40: the bytes read are `n`, so their weighted sum is the value of width `8n` itself. -/
theorem memReadIsLittleEndian : Obligations.MemReadIsLittleEndian := by
  intro s addr n
  split
  · rename_i hout
    exact memRead_eq_error_iff.2 ⟨hout, rfl⟩
  · rename_i hin
    refine ⟨_, memRead_eq_ok_iff.2 ⟨not_lt.1 hin, rfl⟩, ?_⟩
    rw [BitVec.toNat_ofNat, Nat.mod_eq_of_lt (leNat_readBytes_lt s.mem addr.toNat n)]
    exact leNat_readBytes s.mem addr.toNat n

/-- Settles O41: the bytes laid down are the byte fields of the value, lowest first. -/
theorem memWriteIsLittleEndian : Obligations.MemWriteIsLittleEndian := by
  intro s addr n v hwf
  split
  · rename_i hout
    exact memWrite_eq_error_iff.2 ⟨hout, rfl⟩
  · rename_i hin
    have hframe := onlyBytes_writeBytes s addr.toNat (leBytes n v.toNat)
    rw [length_leBytes] at hframe
    refine ⟨_, memWrite_eq_ok_iff.2 ⟨not_lt.1 hin, rfl⟩, hframe, Memory.wf_writeBytes hwf _ _, fun k hk => ?_⟩
    calc (s.mem.writeBytes addr.toNat (leBytes n v.toNat)).read (addr.toNat + k)
        = BitVec.ofNat 8 (v.toNat / 256 ^ k) := by
          rw [Memory.read_writeBytes_inside hwf _ _ _ (by simpa using hk), getElem_leBytes _ _ _ hk]
      _ = v.extractLsb' (8 * k) 8 := by
          rw [BitVec.extractLsb', Nat.shiftRight_eq_div_pow, pow_mul, show 2 ^ 8 = 256 from rfl]

/-- A typed read depends on MEM_CAP and the bytes it reads alone (R33). -/
theorem memRead_congr {s t : State} {addr : Word} {n : Nat} (hcap : t.memCap = s.memCap)
    (h : ∀ i < n, t.byteAt (addr.toNat + i) = s.byteAt (addr.toNat + i)) : memRead t addr n = memRead s addr n := by
  have hbytes : t.mem.readBytes addr.toNat n = s.mem.readBytes addr.toNat n := Memory.readBytes_congr h
  have hbound : inBounds t addr.toNat n = inBounds s addr.toNat n := by simp [inBounds, hcap]
  rw [memRead, memRead, hbound, hbytes]

/-- Settles O42: the same bytes are read back and assemble to the value; the bytes of a disjoint read are untouched. -/
theorem loadReturnsMostRecentStore : Obligations.LoadReturnsMostRecentStore := by
  intro s t addr n v hwf hstore
  obtain ⟨hin, rfl⟩ := memWrite_eq_ok_iff.1 hstore
  refine ⟨memRead_eq_ok_iff.2 ⟨hin, ?_⟩, fun addr' m hdisjoint => memRead_congr rfl fun i hi => ?_⟩
  · have hback := Memory.readBytes_writeBytes hwf addr.toNat (leBytes n v.toNat)
    rw [length_leBytes] at hback
    have hfits : v.toNat % 256 ^ n = v.toNat := Nat.mod_eq_of_lt (by simpa [pow_mul] using v.isLt)
    rw [State.setMem_mem, hback, leNat_leBytes, hfits, BitVec.ofNat_toNat, BitVec.setWidth_eq]
  · exact Memory.read_writeBytes_outside s.mem (by rw [length_leBytes]; omega)

-- The stack primitives.

theorem push_eq_error_iff {s : State} {b : Byte} {k : Condition} :
    push s b = .error k ↔ s.sp = 0 ∧ k = .memory := by
  unfold push
  split <;> simp_all [eq_comm]

theorem pushNWith_eq_error_iff {o : PushNOrder} {s : State} {bs : List Byte} {k : Condition} :
    pushNWith o s bs = .error k ↔ s.sp < bs.length ∧ k = .memory := by
  unfold pushNWith
  split <;> simp_all [eq_comm]

theorem pop_eq_error_iff {s : State} {k : Condition} : pop s = .error k ↔ s.sp = s.memCap ∧ k = .memory := by
  unfold pop
  split <;> simp_all [eq_comm]

/-- Settles O43: Push stores one byte under the cursor, and a cursor so lowered is below MEM_CAP, where Pop finds it. -/
theorem pushAndPopAreInverse : Obligations.PushAndPopAreInverse := by
  rintro s b ⟨hsp, -, -, hwf, -⟩
  constructor
  · split
    · rename_i hzero
      exact push_eq_error_iff.2 ⟨hzero, rfl⟩
    · rename_i hpos
      have hbyte := Memory.read_write_same hwf (s.sp - 1) b
      refine ⟨_, push_eq_ok_iff.2 ⟨Nat.pos_of_ne_zero hpos, rfl⟩, rfl, hbyte, ?_, rfl, rfl, rfl, rfl, rfl, ?_⟩
      · exact fun _ h => Memory.read_writeBytes_outside s.mem (bs := [b]) h
      · have hcursor : s.sp - 1 + 1 = s.sp := Nat.sub_add_cancel (Nat.pos_of_ne_zero hpos)
        exact pop_eq_ok_iff.2 ⟨by simp; omega, hbyte.symm, by simp [State.setSp, State.setMem, hcursor]⟩
  · split
    · rename_i hempty
      exact pop_eq_error_iff.2 ⟨hempty, rfl⟩
    · rename_i hne
      exact pop_eq_ok_iff.2 ⟨hne, rfl, rfl⟩

/-- The byte at offset `k` of a run just stored is element `k` of the run. -/
theorem Memory.getElem?_eq_read_writeBytes {m : Memory} (hm : m.wf = true) (a : Nat) {bs : List Byte} {k : Nat}
    (hk : k < bs.length) : bs[k]? = some ((m.writeBytes a bs).read (a + k)) := by
  rw [Memory.read_writeBytes_inside hm a bs k hk, List.getElem?_eq_getElem hk]

/-- Settles O44: the layout is a run of as many bytes as were pushed; in the sequential order it is reversed, so that byte
`k` lies `k` below the top. -/
theorem pushNIsAtomicInEitherOrder : Obligations.PushNIsAtomicInEitherOrder := by
  constructor
  · intro o s bs hwf
    split
    · rename_i hfull
      exact pushNWith_eq_error_iff.2 ⟨hfull, rfl⟩
    · rename_i hroom
      have hroom := not_lt.1 hroom
      refine ⟨_, pushNWith_eq_ok_iff.2 ⟨hroom, rfl⟩, rfl, ?_, rfl, rfl, rfl, rfl, rfl, fun k hk => ?_⟩
      · exact fun _ h => Memory.read_writeBytes_outside s.mem (by simpa using h)
      · cases o with
        | sequential =>
          have hbyte := Memory.getElem?_eq_read_writeBytes hwf (s.sp - bs.length) (bs := bs.reverse)
            (k := bs.length - 1 - k) (by simp; omega)
          rw [List.getElem?_reverse (by omega), show bs.length - 1 - (bs.length - 1 - k) = k by omega,
            show s.sp - bs.length + (bs.length - 1 - k) = s.sp - 1 - k by omega] at hbyte
          exact hbyte
        | block => exact Memory.getElem?_eq_read_writeBytes hwf (s.sp - bs.length) hk
  · intro s bs
    unfold pushN
    cases Config.pushNOrder with
    | sequential => exact .inl rfl
    | block => exact .inr rfl

-- Plain byte access.

theorem byteRead_eq_error_iff {s : State} {a : Word} {k : Condition} :
    byteRead s a = .error k ↔ s.memCap ≤ a.toNat ∧ k = .memory := by
  unfold byteRead
  split <;> simp_all [eq_comm]

theorem byteWrite_eq_error_iff {s : State} {a : Word} {b : Byte} {k : Condition} :
    byteWrite s a b = .error k ↔ s.memCap ≤ a.toNat ∧ k = .memory := by
  unfold byteWrite
  split <;> simp_all [eq_comm]

/-- Settles O46: a byte write is a store of one byte. -/
theorem plainByteAccess : Obligations.PlainByteAccess := by
  intro s a b hwf
  split
  · rename_i hout
    exact ⟨byteRead_eq_error_iff.2 ⟨hout, rfl⟩, byteWrite_eq_error_iff.2 ⟨hout, rfl⟩⟩
  · rename_i hin
    have hin := not_le.1 hin
    exact ⟨byteRead_eq_ok_iff.2 ⟨hin, rfl⟩, _, byteWrite_eq_ok_iff.2 ⟨hin, rfl⟩,
      onlyBytes_writeBytes s a.toNat [b], byteRead_eq_ok_iff.2 ⟨hin, (Memory.read_write_same hwf a.toNat b).symm⟩⟩

-- The pointer unit.

/-- Settles O47: the base value plus the offset's pattern, the sentinel's base value being 0. -/
theorem resolveAddsSignedOffset : Obligations.ResolveAddsSignedOffset := by
  intro s p _
  rw [resolve_eq, toNat_add_bits64, rNONE]
  split
  · rfl
  · rfl

/-- A pointer moved by a constant resolves to the address moved by the constant's pattern (R41). -/
theorem resolve_pointerAdd (s : State) (p : Pointer) (k : Int) :
    resolve s (pointerAdd p k) = resolve s p + bits64 k := by
  simp [resolve_eq, pointerAdd, BitVec.add_assoc]

/-- Moving a pointer down is moving it up by the opposite constant (R41). -/
theorem pointerSub_eq_pointerAdd_neg (p : Pointer) (k : Int) : pointerSub p k = pointerAdd p (-k) := by
  simp [pointerSub, pointerAdd, bits64, BitVec.ofInt_neg, BitVec.sub_eq_add_neg]

/-- Settles O48: addition by the pattern of the constant, and subtraction as the addition of its opposite. -/
theorem pointerPlusConstant : Obligations.PointerPlusConstant := by
  intro s p k
  have hmoved : ∀ j, ((resolve s (pointerAdd p j)).toNat : Int) = ((resolve s p).toNat + j) % 2 ^ 64 := fun j => by
    rw [resolve_pointerAdd, toNat_add_bits64]
  refine ⟨rfl, Pointer.wellFormed_sext64 _ _, rfl, Pointer.wellFormed_sext64 _ _, hmoved k, ?_⟩
  rw [pointerSub_eq_pointerAdd_neg, hmoved, Int.sub_eq_add_neg]

end Machine

end Sys2Proof
end

section
/-! Encoding (spec/30_encoding.md): the classification of the first byte, the bytes a decode reads, and both
round trips. -/

namespace Sys2Proof

open Machine

-- The first byte.

/-- The opcode map gives each of the 256 first bytes the length of the table of R64. -/
theorem map_length_formatOf (b0 : Byte) : (formatOf b0).map Format.length = tableLength b0 := by
  revert b0; decide

/-- An instruction's length is the one the table gives its first byte (R53, R64). -/
theorem tableLength_of_decode {b0 : Byte} {rest : List Byte} {i : Instr} {n : Nat}
    (h : decode (b0 :: rest) = .ok (i, n)) : tableLength b0 = some n := by
  obtain ⟨_, _, f, hbs, hf, -, -, rfl⟩ := decode_eq_ok_iff.1 h
  cases hbs
  rw [← map_length_formatOf, hf, Option.map_some]

/-- Function code 0 is recognized in every family that recognizes any, with the same length (R60 to R62, R65). -/
theorem tableLength_family {b0 : Byte} {n : Nat} (h : tableLength b0 = some n) :
    tableLength (packByte (hiNibble b0) 0) = some n := by
  have hfamily : ∀ b, (tableLength b).isSome = true →
      tableLength (packByte (hiNibble b) 0) = tableLength b := by decide
  rw [hfamily b0 (by simp [h]), h]

/-- A recognized first byte with too few bytes after it (R53). -/
theorem decode_cons_of_truncated {b0 : Byte} {rest : List Byte} {f : Format} (h : formatOf b0 = some f)
    (hl : rest.length + 1 < f.length) : decode (b0 :: rest) = .error .endOfInput := by
  simp [decode, h, hl]

/-- Settles O3: by what the opcode map holds for the first byte, whose length is the table's. -/
theorem firstByteClassification : Obligations.FirstByteClassification := by
  intro b0 rest
  rw [← map_length_formatOf]
  cases hf : formatOf b0 with
  | none => exact decode_eq_code_iff.2 ⟨b0, rest, rfl, hf⟩
  | some f =>
    simp only [Option.map_some]
    split
    · rename_i hshort
      exact decode_cons_of_truncated hf hshort
    · rename_i hlong
      exact ⟨_, decode_cons_of_format hf (Nat.le_of_not_lt hlong)⟩

/-- Settles O4: both lengths are the length of the family's function code 0. -/
theorem lengthFixedByFamilyNibble : Obligations.LengthFixedByFamilyNibble := by
  intro b0 b0' rest rest' i i' n n' (hnibble : hiNibble b0 = hiNibble b0') h h'
  have hn := tableLength_family (tableLength_of_decode h)
  have hn' := tableLength_family (tableLength_of_decode h')
  rw [hnibble, hn'] at hn
  obtain ⟨-, -, f, -, -, -, -, rfl⟩ := decode_eq_ok_iff.1 h
  exact ⟨(Option.some.inj hn).symm, f.length_cases⟩

-- The bytes a decode reads.

/-- The operands lie in the `L − 1` bytes after the first (R54 to R57). -/
theorem Format.build_take (f : Format) (rest : List Byte) : f.build (rest.take (f.length - 1)) = f.build rest := by
  cases f with
  | f1 i => rfl
  | f2 mk => cases rest <;> rfl
  | f9 mk => simp [Format.build, Format.length, field8, List.take_take]
  | f10 mk => cases rest <;> simp [Format.build, Format.length, field8, pairByte, List.take_take]

/-- Settles O5: the bytes kept are the first one and all that hold operands. -/
theorem decodeReadsOnlyItsOwnBytes : Obligations.DecodeReadsOnlyItsOwnBytes := by
  intro bs tail i n h
  obtain ⟨b0, rest, f, rfl, hf, hl, rfl, rfl⟩ := decode_eq_ok_iff.1 h
  obtain ⟨m, hm⟩ : ∃ m, f.length = m + 1 := Nat.exists_eq_add_of_le' (decode_length_bounds h).1
  have hkept : (rest.take m).length = m := List.length_take_of_le (by omega)
  have hbuild : f.build (rest.take m ++ tail) = f.build rest := by
    have htake : (rest.take m ++ tail).take m = rest.take m := List.take_left' hkept
    calc f.build (rest.take m ++ tail) = f.build ((rest.take m ++ tail).take (f.length - 1)) := (f.build_take _).symm
      _ = f.build (rest.take (f.length - 1)) := by rw [hm, Nat.add_sub_cancel, htake]
      _ = f.build rest := f.build_take rest
  rw [hm, List.take_succ_cons, List.cons_append, ← hm, ← hbuild]
  exact decode_cons_of_format hf (by simp only [List.length_append, hkept]; omega)

-- The round trips.

/-- Settles O1: the round trip of every constructor, an offset in i64 being all it asks of a pointer. -/
theorem decodeEncodeRoundTrip : Obligations.DecodeEncodeRoundTrip :=
  fun _ rest hi => decode_encode hi rest

/-- A list of bytes that is the encoding of a well-formed instruction decodes to it. -/
theorem decode_of_encode_eq {i : Instr} {bs : List Byte} (hi : i.wellFormed = true) (hb : encode i = bs) :
    decode bs = .ok (i, bs.length) := by
  rw [← hb]
  simpa using decode_encode hi []

/-- Settles O6: each word is the encoding of the instruction it stands for. -/
theorem writtenWordsDecode : Obligations.WrittenWordsDecode := by
  refine ⟨?_, ?_, ?_, ?_, ?_, ?_, ?_⟩ <;> exact decode_of_encode_eq rfl (by decide)

/-- The 8-byte field laid out again is the eight bytes it was read from (R59). -/
theorem leBytes_field8 {bs : List Byte} (h : 8 ≤ bs.length) : leBytes 8 (field8 bs).toNat = bs.take 8 := by
  have hlen : (bs.take 8).length = 8 := List.length_take_of_le h
  have hlt := leNat_lt (bs.take 8)
  rw [hlen] at hlt
  have hval : (field8 bs).toNat = leNat (bs.take 8) := Nat.mod_eq_of_lt hlt
  calc leBytes 8 (field8 bs).toNat = leBytes (bs.take 8).length (leNat (bs.take 8)) := by rw [hval, hlen]
    _ = bs.take 8 := leBytes_leNat _

/-- The bytes of an instruction of this format, laid out again from the first byte and the operands that `Format.build`
reads after it (R54 to R57). -/
def Format.bytes (f : Format) (b0 : Byte) (rest : List Byte) : List Byte :=
  match f with
  | .f1 _ => [b0]
  | .f2 _ => [b0, pairByte rest]
  | .f9 _ => b0 :: leBytes 8 (field8 rest).toNat
  | .f10 _ => b0 :: pairByte rest :: leBytes 8 (field8 rest.tail).toNat

/-- A format's layout drops no bit of the bytes it was read from. -/
theorem Format.bytes_eq_take {f : Format} {rest : List Byte} (b0 : Byte) (hl : f.length ≤ rest.length + 1) :
    f.bytes b0 rest = (b0 :: rest).take f.length := by
  cases f with
  | f1 i => rfl
  | f2 mk =>
    obtain ⟨b1, tail, rfl⟩ := List.exists_cons_of_length_pos (Nat.le_of_succ_le_succ hl)
    rfl
  | f9 mk => exact congrArg (b0 :: ·) (leBytes_field8 (Nat.le_of_succ_le_succ hl))
  | f10 mk =>
    obtain ⟨b1, tail, rfl⟩ := List.exists_cons_of_length_pos (l := rest) (by simp only [Format.length] at hl; omega)
    have htail : 8 ≤ tail.length := by simpa [Format.length] using hl
    exact congrArg (b0 :: b1 :: ·) (leBytes_field8 htail)

/-- The register-pair byte as the encoder writes it for `irmovq`, which ignores the high nibble (R58, R66; D6). -/
def fillIgnored (b : Byte) : Byte := packByte rNONE (loNibble b)

/-- A row of the opcode map undoes the encoder: what its format builds is well formed, and encodes to the format's layout
behind the row's first byte, but for the nibble `irmovq` ignores (R58, R66). -/
def RowReencodes (r : Byte × Format) : Prop :=
  ∀ rest, (r.2.build rest).wellFormed = true ∧
    (encode (r.2.build rest) = r.2.bytes r.1 rest ∨
      (∃ v rB, r.2.build rest = .irmovq v rB) ∧ encode (r.2.build rest) = (r.2.bytes r.1 rest).modify 1 fillIgnored)

theorem RowReencodes.f1 {b0 : Byte} {i : Instr} (h : i.wellFormed = true ∧ encode i = [b0]) :
    RowReencodes (b0, .f1 i) :=
  fun _ => h.imp_right .inl

theorem RowReencodes.f2 {b0 : Byte} {mk : (rA rB : RegId) → Instr}
    (h : ∀ rA rB, (mk rA rB).wellFormed = true ∧ encode (mk rA rB) = [b0, packByte rA rB]) :
    RowReencodes (b0, .f2 mk) := fun rest => by
  have hrest := h (hiNibble (pairByte rest)) (loNibble (pairByte rest))
  rw [packByte_nibbles] at hrest
  exact hrest.imp_right .inl

theorem RowReencodes.f9 {b0 : Byte} {mk : (field : Word) → Instr}
    (h : ∀ v, (mk v).wellFormed = true ∧ encode (mk v) = b0 :: leBytes 8 v.toNat) : RowReencodes (b0, .f9 mk) :=
  fun rest => (h (field8 rest)).imp_right .inl

theorem RowReencodes.f10 {b0 : Byte} {mk : (rA rB : RegId) → (field : Word) → Instr}
    (h : ∀ rA rB v, (mk rA rB v).wellFormed = true ∧
      encode (mk rA rB v) = b0 :: packByte rA rB :: leBytes 8 v.toNat) : RowReencodes (b0, .f10 mk) := fun rest => by
  have hrest := h (hiNibble (pairByte rest)) (loNibble (pairByte rest)) (field8 rest.tail)
  rw [packByte_nibbles] at hrest
  exact hrest.imp_right .inl

/-- `irmovq` forgets the high nibble of byte 1, and its encoding has the sentinel there (R58, R66). -/
theorem RowReencodes.irmovq :
    RowReencodes (row Config.opcIrmov 0 (.f10 fun _ rB v => .irmovq v rB)) :=
  fun _ => ⟨rfl, .inr ⟨⟨_, _, rfl⟩, rfl⟩⟩

/-- Every row of the opcode map undoes the encoder behind its own first byte (R64, R66). -/
theorem reencodes_of_mem_opcodeMap : ∀ r ∈ opcodeMap, RowReencodes r := by
  simp only [opcodeMap, rowsPlain, rowsMove, rowsField, rowsArith, rowsJump, rowsCallStack, List.forall_mem_append,
    List.forall_mem_cons, List.not_mem_nil, IsEmpty.forall_iff, implies_true, and_true]
  refine ⟨⟨⟨⟨⟨?plain, ?move⟩, ?field⟩, ?arith⟩, ?jump⟩, ?callStack⟩
  case plain => and_intros <;> exact .f1 ⟨rfl, rfl⟩
  case move => and_intros <;> exact .f2 fun _ _ => ⟨rfl, rfl⟩
  case field =>
    have hpointer (icode rA rB : Nibble) (v : Word) : encF10 icode rA rB (bits64 (pointerOf rB v).off) =
        packByte icode 0 :: packByte rA rB :: leBytes 8 v.toNat := by simp [encF10, pointerOf]
    exact ⟨.irmovq, .f10 fun rA rB v => ⟨Pointer.wellFormed_sext64 rB v, hpointer Config.opcRmmov rA rB v⟩,
      .f10 fun rA rB v => ⟨Pointer.wellFormed_sext64 rB v, hpointer Config.opcMrmov rA rB v⟩⟩
  case arith => and_intros <;> exact .f2 fun _ _ => ⟨rfl, rfl⟩
  case jump => and_intros <;> exact .f9 fun _ => ⟨rfl, rfl⟩
  case callStack =>
    exact ⟨.f9 fun _ => ⟨rfl, rfl⟩, .f2 fun _ _ => ⟨rfl, rfl⟩, .f2 fun _ _ => ⟨rfl, rfl⟩⟩

/-- A decoded instruction is well formed, and its encoding is the bytes it was decoded from, but for the nibble `irmovq`
ignores (R53, R58, R66). -/
theorem encode_of_decode {bs : List Byte} {i : Instr} {n : Nat} (h : decode bs = .ok (i, n)) :
    i.wellFormed = true ∧
      (encode i = bs.take n ∨ (∃ v rB, i = .irmovq v rB) ∧ encode i = (bs.take n).modify 1 fillIgnored) := by
  obtain ⟨b0, rest, f, rfl, hf, hl, rfl, rfl⟩ := decode_eq_ok_iff.1 h
  rw [← f.bytes_eq_take b0 hl]
  exact reencodes_of_mem_opcodeMap _ (mem_opcodeMap_of_formatOf hf) rest

/-- Settles O2: filling the ignored nibble changes byte 1 alone, and there keeps the low nibble. -/
theorem decodedBytesReencode : Obligations.DecodedBytesReencode := by
  intro bs i n h
  obtain ⟨-, -, hn⟩ := decode_length_bounds h
  obtain ⟨hwf, henc⟩ := encode_of_decode h
  have hlen : (encode i).length = n := by
    obtain henc | ⟨-, henc⟩ := henc <;> simp [henc, hn]
  refine ⟨hwf, hlen, hn, fun k hk => ?_⟩
  have hbyte : (bs.take n)[k]? = bs[k]? := List.getElem?_take_of_lt hk
  obtain henc | ⟨hirmovq, henc⟩ := henc
  · exact .inl (by rw [henc, hbyte])
  · by_cases hk1 : k = 1
    · subst hk1
      have hb1 : bs[1]? = some (bs[1]'(by omega)) := List.getElem?_eq_getElem _
      exact .inr ⟨rfl, hirmovq, fillIgnored _, _, by rw [henc, List.getElem?_modify_eq, hbyte, hb1]; rfl, hb1,
        loNibble_packByte _ _⟩
    · exact .inl (by rw [henc, List.getElem?_modify_ne _ _ (Ne.symm hk1), hbyte])

end Sys2Proof
end

section
/-! Family 0 (spec/40_halt_nop.md): `halt` takes the condition Halted (R70), `nop` does nothing (R71). Each is one byte, and
that byte is its encoding. -/

namespace Sys2Proof

namespace Machine

/-- `halt` writes the run state and no other field (R70). -/
theorem exec_halt (s : State) : exec .halt s = .next (s.setRunState .halted) := rfl

theorem exec_nop (s : State) : exec .nop s = .next s := rfl

/-- The host reads Halted as a success (R103). -/
theorem State.succeeded_setRunState_halted (s : State) : (s.setRunState .halted).succeeded := rfl

/-- Settles O13: the byte is the encoding of `halt`, so the step executes it. -/
theorem haltEndsTheRunSuccessfully : Obligations.HaltEndsTheRunSuccessfully := by
  refine ⟨fun s hs => ?_, fun s => ⟨exec_halt s, s.succeeded_setRunState_halted⟩⟩
  have hbytes : RunsBytes s (encode .halt) := hs
  exact stepRunsDecodedInstruction.2 s .halt rfl hbytes

/-- Settles O14: the byte is the encoding of `nop`, so the step executes it. -/
theorem nopChangesNothing : Obligations.NopChangesNothing := by
  refine ⟨fun s hs => ?_, exec_nop⟩
  have hbytes : RunsBytes s (encode .nop) := hs
  exact stepRunsDecodedInstruction.2 s .nop rfl hbytes

end Machine

end Sys2Proof
end

section
/-! Family 1 (spec/41_register_moves.md): `rrmovq`, `irmovq` and the fifteen reserved moves. The step is taken straight from
the bytes at `pc`, format by format, because `irmovq` has more than one encoding (D6); then each instruction's effect. -/

namespace Sys2Proof

/-- The 8-byte field is `LE8` of its bytes (R9, R59). -/
theorem field8_eq_LE8 (b0 b1 b2 b3 b4 b5 b6 b7 : Byte) :
    field8 [b0, b1, b2, b3, b4, b5, b6, b7] = Machine.LE8 b0 b1 b2 b3 b4 b5 b6 b7 := by
  simp only [field8, Machine.LE8, List.take, leNat]
  congr 1
  ring

namespace Machine

-- From bytes at `pc` to the instruction a step runs, whichever of its encodings they are.

/-- A machine whose bytes at `pc` are one instruction's, whole, runs that instruction, `pc` advanced past them (R17, R90). -/
theorem RunsBytes.step_of_decode {s : State} {bs : List Byte} {i : Instr} (h : RunsBytes s bs)
    (hd : decode bs = .ok (i, bs.length)) : step s = exec i (s.setPc (s.pc + BitVec.ofNat 64 bs.length)) := by
  obtain ⟨tail, htail⟩ := h.stream_eq
  have hne : bs ≠ [] := List.ne_nil_of_length_pos (decode_length_bounds hd).1
  have hstream : decode (stream s) = .ok (i, bs.length) := by
    simpa [htail] using decodeReadsOnlyItsOwnBytes bs tail i bs.length hd
  exact step_eq_exec h.1 (h.pc_lt hne) hstream

/-- Format F2: the two nibbles of the register-pair byte are the operands (R55). -/
theorem RunsBytes.step_f2 {s : State} {b0 b1 : Byte} {mk : (rA rB : RegId) → Instr} (h : RunsBytes s [b0, b1])
    (hf : formatOf b0 = some (.f2 mk)) : step s = exec (mk (hiNibble b1) (loNibble b1)) (s.setPc (s.pc + 2)) :=
  h.step_of_decode (decode_cons_of_format hf le_rfl)

/-- Format F10: the two nibbles and the little-endian field are the operands (R56, R59). -/
theorem RunsBytes.step_f10 {s : State} {b0 b1 v0 v1 v2 v3 v4 v5 v6 v7 : Byte}
    {mk : (rA rB : RegId) → (field : Word) → Instr} (h : RunsBytes s [b0, b1, v0, v1, v2, v3, v4, v5, v6, v7])
    (hf : formatOf b0 = some (.f10 mk)) :
    step s = exec (mk (hiNibble b1) (loNibble b1) (LE8 v0 v1 v2 v3 v4 v5 v6 v7)) (s.setPc (s.pc + 10)) := by
  rw [← field8_eq_LE8]
  exact h.step_of_decode (decode_cons_of_format hf le_rfl)

-- The effects.

/-- An instruction that ends in one validated register write: Register and nothing else where validation fails, otherwise
that one register. -/
theorem register_or_onlyRegister {P : Prop} [Decidable P] {i : Instr} {d : RegId} {v : Word} {s : State}
    (h : exec i s = .next (if P then takeCondition .register s else s.setX d v)) :
    if P then exec i s = .next (takeCondition .register s)
    else ∃ t, exec i s = .next t ∧ OnlyRegister d v s t := by
  split
  · rename_i hP
    rw [h, if_pos hP]
  · rename_i hP
    rw [if_neg hP] at h
    exact ⟨s.setX d v, h, onlyRegister_setX s d v⟩

/-- Settles O15: validation of either id may fail; past it, one slot is written with the source's value. -/
theorem rrmovqCopiesRegister : Obligations.RrmovqCopiesRegister :=
  ⟨fun _ _ h => h.step_f2 (mk := .rrmovq) rfl,
    fun rA rB s => register_or_onlyRegister (i := .rrmovq rA rB) (execRrmovq_eq rA rB s)⟩

/-- Settles O17: the field is the immediate, and the format's high nibble reaches no field of `irmovq`. -/
theorem irmovqLoadsImmediate : Obligations.IrmovqLoadsImmediate :=
  ⟨fun _ _ _ _ _ _ _ _ _ _ h => h.step_f10 (mk := fun _ rB v => .irmovq v rB) rfl,
    fun v rB s => register_or_onlyRegister (i := .irmovq v rB) (execIrmovq_eq v rB s)⟩

/-- A row of format F2 whose instruction is a reserved move, whatever its operands (R62, R73). -/
structure IsReservedMove (r : Byte × ((rA rB : RegId) → Instr)) : Prop where
  format : formatOf r.1 = some (.f2 r.2)
  exec_eq : ∀ rA rB s, exec (r.2 rA rB) s = reservedMove s

/-- A reserved move takes Unimplemented and changes nothing else (R73, D5). -/
theorem reservedMove_eq (s : State) : reservedMove s = .next (s.setRunState (.failed .unimplemented)) := rfl

/-- Settles O16: every one of the fifteen rows is a reserved move. -/
theorem reservedMovesFailUnimplemented : Obligations.ReservedMovesFailUnimplemented := by
  intro s b1 p hp
  have hrow : IsReservedMove p := by
    revert p
    simp only [List.forall_mem_cons, List.not_mem_nil, IsEmpty.forall_iff, implies_true, and_true]
    and_intros <;> exact ⟨rfl, fun _ _ _ => rfl⟩
  exact ⟨fun h => h.step_f2 hrow.format, fun rA rB u => (hrow.exec_eq rA rB u).trans (reservedMove_eq u)⟩

end Machine

end Sys2Proof
end

section
/-! Family 2 (spec/42_memory_moves.md): the store `rmmovq` and the load `mrmovq`. The step is taken from the bytes
at `pc`; each effect is then the typed memory access of spec/20_memory.md at the resolved address. -/

namespace Sys2Proof

namespace Machine

/-- The value of the eight bytes from `a` is `LE8` of them (R9, R31). -/
theorem ofNat_leNat_readBytes_eq_LE8 (m : Memory) (a : Nat) :
    BitVec.ofNat 64 (leNat (m.readBytes a 8)) = LE8 (m.read a) (m.read (a + 1)) (m.read (a + 2)) (m.read (a + 3))
      (m.read (a + 4)) (m.read (a + 5)) (m.read (a + 6)) (m.read (a + 7)) :=
  field8_eq_LE8 ..

-- The store.

/-- The sentinel as source is refused before the address is looked at (R75, D14). -/
theorem exec_rmmovq_of_sentinel {rA : RegId} (hA : rA = rNONE) (p : Pointer) (s : State) :
    exec (.rmmovq rA p) s = .next (takeCondition .register s) :=
  (execRmmovq_eq rA p s).trans (by rw [if_pos hA])

/-- A store that passes MEM_CAP writes nothing (R32, R75). -/
theorem exec_rmmovq_of_out_of_bounds {rA : RegId} {p : Pointer} {s : State} (hA : rA ≠ rNONE)
    (hm : s.memCap < (resolve s p).toNat + 8) : exec (.rmmovq rA p) s = .next (takeCondition .memory s) :=
  (execRmmovq_eq rA p s).trans (by rw [if_neg hA, if_neg (not_le.2 hm)])

/-- A store in bounds lays down the eight bytes of its source (R75). -/
theorem exec_rmmovq_of_in_bounds {rA : RegId} {p : Pointer} {s : State} (hA : rA ≠ rNONE)
    (hm : (resolve s p).toNat + 8 ≤ s.memCap) :
    exec (.rmmovq rA p) s =
      .next (s.setMem (s.mem.writeBytes (resolve s p).toNat (leBytes 8 (s.x rA).toNat))) :=
  (execRmmovq_eq rA p s).trans (by rw [if_neg hA, if_pos hm])

/-- The bytes of a typed store in bounds are the byte fields of its value, lowest first (R34). -/
theorem byteAt_setMem_writeBytes_leBytes {s : State} (hwf : s.mem.wf = true) {addr : Word} {n : Nat}
    (hm : addr.toNat + n ≤ s.memCap) (v : BitVec (8 * n)) {k : Nat} (hk : k < n) :
    (s.setMem (s.mem.writeBytes addr.toNat (leBytes n v.toNat))).byteAt (addr.toNat + k) = v.extractLsb' (8 * k) 8 := by
  have hstore := memWriteIsLittleEndian s addr n v hwf
  rw [if_neg (not_lt.2 hm)] at hstore
  obtain ⟨t, ht, -, -, hbytes⟩ := hstore
  obtain ⟨-, rfl⟩ := memWrite_eq_ok_iff.1 ht
  exact hbytes k hk

/-- Settles O18: the source is validated, then the bound; past both, the store is the typed write of eight bytes. -/
theorem rmmovqStoresEightBytes : Obligations.RmmovqStoresEightBytes := by
  refine ⟨fun _ _ _ _ _ _ _ _ _ _ h => h.step_f10 (mk := fun rA rB v => .rmmovq rA (pointerOf rB v)) rfl,
    fun rA p s => ?_⟩
  split
  · rename_i hA
    exact exec_rmmovq_of_sentinel hA p s
  · rename_i hA
    split
    · rename_i hout
      exact exec_rmmovq_of_out_of_bounds hA hout
    · rename_i hin
      have hin := not_lt.1 hin
      exact ⟨_, exec_rmmovq_of_in_bounds hA hin, onlyBytes_writeBytes s _ (leBytes 8 (s.x rA).toNat),
        fun hwf _ hk => byteAt_setMem_writeBytes_leBytes hwf hin (s.x rA) hk⟩

-- The load.

/-- A load that passes MEM_CAP is refused before its destination is validated (R76, D14). -/
theorem exec_mrmovq_of_out_of_bounds {p : Pointer} {s : State} (hm : s.memCap < (resolve s p).toNat + 8) (rA : RegId) :
    exec (.mrmovq p rA) s = .next (takeCondition .memory s) :=
  (execMrmovq_eq p rA s).trans (by rw [if_neg (not_le.2 hm)])

/-- A load in bounds ends in one validated write of the eight bytes' value (R76). -/
theorem exec_mrmovq_of_in_bounds {p : Pointer} {s : State} (hm : (resolve s p).toNat + 8 ≤ s.memCap) (rA : RegId) :
    exec (.mrmovq p rA) s = .next (if rA = rNONE then takeCondition .register s
      else s.setX rA (BitVec.ofNat 64 (leNat (s.mem.readBytes (resolve s p).toNat 8)))) :=
  (execMrmovq_eq p rA s).trans (by rw [if_pos hm])

/-- Settles O19: the bound is checked first; past it, the load is a register write of `LE8` of the bytes read. -/
theorem mrmovqLoadsEightBytes : Obligations.MrmovqLoadsEightBytes := by
  refine ⟨fun _ _ _ _ _ _ _ _ _ _ h => h.step_f10 (mk := fun rA rB v => .mrmovq (pointerOf rB v) rA) rfl,
    fun p rA s => ?_⟩
  split
  · rename_i hout
    exact exec_mrmovq_of_out_of_bounds hout rA
  · rename_i hin
    have hload := exec_mrmovq_of_in_bounds (not_lt.1 hin) rA
    rw [ofNat_leNat_readBytes_eq_LE8] at hload
    exact register_or_onlyRegister hload

end Machine

end Sys2Proof
end

section
/-! Family 3 (spec/43_arith.md): `addq`, `subq`, `andq`, `xorq`. The four share one rule, a validated write of
`OP(vB, vA)` (R78); each obligation adds what its `OP` computes on words. -/

namespace Sys2Proof

/-- Word subtraction is subtraction of integers modulo 2^64 (R80). -/
theorem toNat_sub_eq_emod (v w : Word) : ((v - w).toNat : Int) = ((v.toNat : Int) - (w.toNat : Int)) % 2 ^ 64 := by
  rw [BitVec.toNat_sub]
  omega

namespace Machine

/-- The common rule (R78): Register and nothing else when either id is the sentinel, otherwise `x[rB]` alone changes, to a
value with every property `Q` of `OP(vB, vA)`. -/
theorem register_or_arithmetic_result {i : Instr} {op : (vB vA : Word) → Word} {rA rB : RegId} {s : State}
    {Q : Word → Prop} (hi : exec i s = arithmetic op rA rB s) (hQ : Q (op (s.x rB) (s.x rA))) :
    if rA = rNONE ∨ rB = rNONE then exec i s = .next (takeCondition .register s)
    else ∃ t v, exec i s = .next t ∧ OnlyRegister rB v s t ∧ Q v := by
  have hwrite := register_or_onlyRegister (hi.trans (arithmetic_eq op rA rB s))
  split
  · rename_i hNone
    rwa [if_pos hNone] at hwrite
  · rename_i hReal
    rw [if_neg hReal] at hwrite
    obtain ⟨t, ht, honly⟩ := hwrite
    exact ⟨t, _, ht, honly, hQ⟩

/-- Settles O20: `OP` is word addition, which is addition of naturals modulo 2^64. -/
theorem addqAddsModulo64Bits : Obligations.AddqAddsModulo64Bits :=
  ⟨fun _ _ h => h.step_f2 (mk := .addq) rfl,
    fun rA rB s => register_or_arithmetic_result (i := .addq rA rB) rfl (BitVec.toNat_add (s.x rB) (s.x rA))⟩

/-- Settles O21: `OP` is word subtraction with the destination's value as minuend. -/
theorem subqSubtractsModulo64Bits : Obligations.SubqSubtractsModulo64Bits :=
  ⟨fun _ _ h => h.step_f2 (mk := .subq) rfl,
    fun rA rB s => register_or_arithmetic_result (i := .subq rA rB) rfl (toNat_sub_eq_emod (s.x rB) (s.x rA))⟩

/-- Settles O22: a bit of `vB &&& vA` is the conjunction of the two bits. -/
theorem andqIsBitwise : Obligations.AndqIsBitwise := by
  refine ⟨fun _ _ h => h.step_f2 (mk := .andq) rfl,
    fun rA rB s => register_or_arithmetic_result (i := .andq rA rB) (op := fun vB vA => vB &&& vA) rfl fun k _ => ?_⟩
  rw [BitVec.getLsbD_and, Bool.and_eq_true]

/-- Settles O23: a bit of `vB ^^^ vA` says whether the two bits differ. -/
theorem xorqIsBitwise : Obligations.XorqIsBitwise := by
  refine ⟨fun _ _ h => h.step_f2 (mk := .xorq) rfl,
    fun rA rB s => register_or_arithmetic_result (i := .xorq rA rB) (op := fun vB vA => vB ^^^ vA) rfl fun k _ => ?_⟩
  rw [BitVec.getLsbD_xor, bne_iff_ne]

end Machine

end Sys2Proof
end

section
/-! Family 4 (spec/44_jump.md): `jmp` and the fifteen reserved jumps. The step is taken from the bytes at `pc`, format F9;
then each instruction's effect, and for `jmp` what the next loop test makes of its target. -/

namespace Sys2Proof

namespace Machine

/-- Format F9: the little-endian field is the operand (R57, R59). -/
theorem RunsBytes.step_f9 {s : State} {b0 t0 t1 t2 t3 t4 t5 t6 t7 : Byte} {mk : (field : Word) → Instr}
    (h : RunsBytes s [b0, t0, t1, t2, t3, t4, t5, t6, t7]) (hf : formatOf b0 = some (.f9 mk)) :
    step s = exec (mk (LE8 t0 t1 t2 t3 t4 t5 t6 t7)) (s.setPc (s.pc + 9)) := by
  rw [← field8_eq_LE8]
  exact h.step_of_decode (decode_cons_of_format hf le_rfl)

/-- `jmp` writes `pc` and no other field, whatever its target is (R83). -/
theorem exec_jmp (dest : Word) (s : State) : exec (.jmp dest) s = .next (s.setPc dest) := rfl

/-- A running machine whose loop test fails takes EndOfInput and keeps its `pc` (R90, D13). -/
theorem step_of_pc_ge {s : State} (hr : s.runState = .running) (hpc : s.prog.length ≤ s.pc.toNat) :
    step s = .next (takeCondition .endOfInput s) :=
  (step_of_running hr).1 .endOfInput (fetchDecode_eq_error_iff.2 (.inl ⟨hpc, rfl⟩))

/-- Settles O24: the field is the target, and the loop test that ends the run is that of the state `jmp` leaves. -/
theorem jmpLoadsProgramCounter : Obligations.JmpLoadsProgramCounter :=
  ⟨fun _ _ _ _ _ _ _ _ _ h => h.step_f9 (mk := .jmp) rfl,
    fun dest s => ⟨exec_jmp dest s, fun hr hpc => step_of_pc_ge (s := s.setPc dest) hr hpc⟩⟩

/-- A row of format F9 whose instruction is a reserved jump, whatever its target (R62, R84). -/
structure IsReservedJump (r : Byte × ((dest : Word) → Instr)) : Prop where
  format : formatOf r.1 = some (.f9 r.2)
  exec_eq : ∀ dest s, exec (r.2 dest) s = reservedJump s

/-- A reserved jump takes Unimplemented and changes nothing else, `pc` included (R84, D5). -/
theorem reservedJump_eq (s : State) : reservedJump s = .next (s.setRunState (.failed .unimplemented)) := rfl

/-- Settles O25: every one of the fifteen rows is a reserved jump. -/
theorem reservedJumpsFailUnimplemented : Obligations.ReservedJumpsFailUnimplemented := by
  intro s t0 t1 t2 t3 t4 t5 t6 t7 p hp
  have hrow : IsReservedJump p := by
    revert p
    simp only [List.forall_mem_cons, List.not_mem_nil, IsEmpty.forall_iff, implies_true, and_true]
    and_intros <;> exact ⟨rfl, fun _ _ => rfl⟩
  exact ⟨fun h => h.step_f9 hrow.format, fun dest u => (hrow.exec_eq dest u).trans (reservedJump_eq u)⟩

end Machine

end Sys2Proof
end

section
/-! Family 5 (spec/45_call_stack.md): `call`, `ret`, `pushq` and `popq`, decoded and then no operation, the choice that 93 U2
asks a model to mark (log 9). The step is taken from the bytes at `pc`, whole or cut short. -/

namespace Sys2Proof

namespace Machine

/-- Format F1: the byte alone is the instruction (R54). -/
theorem RunsBytes.step_f1 {s : State} {b0 : Byte} {i : Instr} (h : RunsBytes s [b0]) (hf : formatOf b0 = some (.f1 i)) :
    step s = exec i (s.setPc (s.pc + 1)) :=
  h.step_of_decode (decode_cons_of_format hf le_rfl)

/-- The byte at `pc` is the head of the stream (R50). -/
theorem stream_eq_cons {s : State} {b0 : Byte} (hb : s.prog[s.pc.toNat]? = some b0) :
    stream s = b0 :: s.prog.drop (s.pc.toNat + 1) := by
  obtain ⟨hpc, rfl⟩ := List.getElem?_eq_some_iff.1 hb
  exact List.drop_eq_getElem_cons hpc

/-- A running machine at a recognized first byte with too few bytes left takes EndOfInput and keeps its `pc` (R53, R96). -/
theorem step_of_truncated {s : State} {b0 : Byte} {f : Format} (hr : s.runState = .running)
    (hb : s.prog[s.pc.toNat]? = some b0) (hf : formatOf b0 = some f) (hl : s.prog.length < s.pc.toNat + f.length) :
    step s = .next (takeCondition .endOfInput s) := by
  have hpc : s.pc.toNat < s.prog.length := (List.getElem?_eq_some_iff.1 hb).1
  have hd : decode (stream s) = .error .endOfInput := by
    rw [stream_eq_cons hb]
    refine decode_cons_of_truncated hf ?_
    rw [List.length_drop]
    omega
  exact (step_of_running hr).1 .endOfInput (fetchDecode_eq_error_iff.2 (.inr ⟨hpc, _, hd, rfl⟩))

/-- `call` does not jump and pushes nothing (R85). -/
theorem exec_call (dest : Word) (s : State) : exec (.call dest) s = .next s := rfl

/-- `ret` pops nothing (R86). -/
theorem exec_ret (s : State) : exec .ret s = .next s := rfl

/-- `pushq` validates neither nibble and does not invoke `Push` (R87). -/
theorem exec_pushq (rA rB : RegId) (s : State) : exec (.pushq rA rB) s = .next s := rfl

/-- `popq` validates neither nibble and does not invoke `Pop` (R88). -/
theorem exec_popq (rA rB : RegId) (s : State) : exec (.popq rA rB) s = .next s := rfl

/-- Settles O26: each step is that of the instruction's format, a `call` cut short stops in the decoder, and each effect is
none. -/
theorem callRetPushPopDoNothing : Obligations.CallRetPushPopDoNothing := by
  refine ⟨?call, ?truncatedCall, ?ret, ?pushq, ?popq, ?effects⟩
  case call => exact fun s t0 t1 t2 t3 t4 t5 t6 t7 h => h.step_f9 (mk := .call) rfl
  case truncatedCall => exact fun s hr hb hl => step_of_truncated (f := .f9 .call) hr hb rfl hl
  case ret => exact fun s h => h.step_f1 rfl
  case pushq => exact fun s b1 h => h.step_f2 (mk := .pushq) rfl
  case popq => exact fun s b1 h => h.step_f2 (mk := .popq) rfl
  case effects => exact fun s dest rA rB => ⟨exec_call dest s, exec_ret s, exec_pushq rA rB s, exec_popq rA rB s⟩

end Machine

end Sys2Proof
end

section
/-! Conditions and the ways a run ends (spec/60_exceptions.md): which condition comes from where, what a failing step
has done, and the runs that end and that do not. -/

namespace Sys2Proof

/-- The decoder raises Code exactly on a first byte that the table of R64 does not list (R53, R95). -/
theorem decode_cons_eq_code_iff {b0 : Byte} {rest : List Byte} :
    decode (b0 :: rest) = .error .code ↔ Machine.tableLength b0 = none := by
  rw [decode_eq_code_iff, ← map_length_formatOf, Option.map_eq_none_iff]
  constructor
  · rintro ⟨b, r, hb, hf⟩
    cases hb
    exact hf
  · exact fun hf => ⟨b0, rest, rfl, hf⟩

namespace Machine

-- Where a condition comes from.

/-- Before execution, Code is raised exactly on an unrecognized byte at `pc` (R95). -/
theorem fetchDecode_eq_code_iff {s : State} :
    fetchDecode s = .error .code ↔ ∃ b0, s.prog[s.pc.toNat]? = some b0 ∧ tableLength b0 = none := by
  constructor
  · intro h
    obtain ⟨-, hk⟩ | ⟨hpc, e, hd, hk⟩ := fetchDecode_eq_error_iff.1 h
    · cases hk
    · have hb := List.getElem?_eq_getElem hpc
      cases e with
      | code => exact ⟨_, hb, decode_cons_eq_code_iff.1 (stream_eq_cons hb ▸ hd)⟩
      | endOfInput => cases hk
  · rintro ⟨b0, hb, hL⟩
    have hd : decode (stream s) = .error .code := by rw [stream_eq_cons hb, decode_cons_eq_code_iff.2 hL]
    have hpc : s.pc.toNat < s.prog.length := (List.getElem?_eq_some_iff.1 hb).1
    exact fetchDecode_eq_error_iff.2 (.inr ⟨hpc, .code, hd, rfl⟩)

/-- The loop test and the decode raise no other condition than these two (R91). -/
theorem fetchDecode_error_cases {s : State} {k : Condition} (h : fetchDecode s = .error k) :
    k = .code ∨ k = .endOfInput := by
  obtain ⟨-, rfl⟩ | ⟨-, e, -, rfl⟩ := fetchDecode_eq_error_iff.1 h
  · exact .inr rfl
  · cases e with
    | code => exact .inl rfl
    | endOfInput => exact .inr rfl

/-- The conditions that the table of R91 gives to the executor: Halt for `halt` alone, and three of the failures. -/
inductive MayRaise : Instr → Condition → Prop
  | halt : MayRaise .halt .halt
  | register (i : Instr) : MayRaise i .register
  | memory (i : Instr) : MayRaise i .memory
  | unimplemented (i : Instr) : MayRaise i .unimplemented

/-- From `s` to `t` the run state is kept, or `t` is `s` with a condition taken that the executor may raise for `i`. -/
def KeepsRunStateOrRaises (i : Instr) (s t : State) : Prop :=
  t.runState = s.runState ∨ ∃ k, MayRaise i k ∧ t = takeCondition k s

theorem KeepsRunStateOrRaises.takeCondition {i : Instr} {k : Condition} (h : MayRaise i k) (s : State) :
    KeepsRunStateOrRaises i s (takeCondition k s) :=
  .inr ⟨k, h, rfl⟩

/-- A validated register write that ends an instruction keeps the run state or raises Register. -/
theorem KeepsRunStateOrRaises.validatedWrite (P : Prop) [Decidable P] (i : Instr) (s : State) (d : RegId) (v : Word) :
    KeepsRunStateOrRaises i s (if P then Machine.takeCondition .register s else s.setX d v) := by
  split
  · exact .takeCondition (.register i) s
  · exact .inl rfl

/-- No instruction raises Code or EndOfInput, and none but `halt` raises Halt (R91, R97). -/
theorem exec_keepsRunStateOrRaises (i : Instr) (s : State) :
    ∃ t, exec i s = .next t ∧ KeepsRunStateOrRaises i s t := by
  cases i with
  | halt => exact ⟨_, rfl, .takeCondition .halt s⟩
  | rrmovq rA rB => exact ⟨_, execRrmovq_eq rA rB s, .validatedWrite _ _ s _ _⟩
  | irmovq v rB => exact ⟨_, execIrmovq_eq v rB s, .validatedWrite _ _ s _ _⟩
  | addq rA rB | subq rA rB | andq rA rB | xorq rA rB =>
    exact ⟨_, arithmetic_eq _ rA rB s, .validatedWrite _ _ s _ _⟩
  | rmmovq rA p =>
    refine ⟨_, execRmmovq_eq rA p s, ?_⟩
    split
    · exact .takeCondition (.register _) s
    · split
      · exact .inl rfl
      · exact .takeCondition (.memory _) s
  | mrmovq p rA =>
    refine ⟨_, execMrmovq_eq p rA s, ?_⟩
    split
    · exact .validatedWrite _ _ s _ _
    · exact .takeCondition (.memory _) s
  | jmp _ | nop | call _ | ret | pushq _ _ | popq _ _ => exact ⟨_, rfl, .inl rfl⟩
  | _ => exact ⟨_, rfl, .takeCondition (.unimplemented _) s⟩

/-- Everything a failing step can have done (R92, R95): the decoder raised Code, or a decoded instruction raised another
failure, `pc` being past it. -/
theorem failing_step_cases {s t : State} {f : FailKind} (h : step s = .next t) (hf : t.runState = .failed f) :
    (f = .code ∧ fetchDecode s = .error .code ∧ t = s.setRunState (.failed f)) ∨
      (f ≠ .code ∧ ∃ i n, decode (stream s) = .ok (i, n) ∧
        t = (s.setPc (s.pc + BitVec.ofNat 64 n)).setRunState (.failed f)) := by
  obtain ⟨hr, ⟨k, hk, rfl⟩ | ⟨i, n, -, hd, hex⟩⟩ := step_cases h
  · obtain rfl | rfl := fetchDecode_error_cases hk
    · cases hf
      exact .inl ⟨rfl, hk, rfl⟩
    · cases hf
  · obtain ⟨u, hu, heffect⟩ := exec_keepsRunStateOrRaises i (s.setPc (s.pc + BitVec.ofNat 64 n))
    obtain rfl : u = t := Host.Outcome.next.inj (hu.symm.trans hex)
    obtain hkept | ⟨k, hraised, rfl⟩ := heffect
    · have hrunning : u.runState = .running := hkept.trans hr
      rw [hrunning] at hf
      cases hf
    · have hkind : f ≠ .code := by
        rintro rfl
        cases hraised <;> cases hf
      refine .inr ⟨hkind, i, n, hd, ?_⟩
      rw [← hf]
      rfl

/-- Settles O8: Code comes from the decoder alone, on an unrecognized byte. -/
theorem unrecognizedByteFailsWithCode : Obligations.UnrecognizedByteFailsWithCode := by
  intro s hr
  have hstep {b0 : Byte} (hb : s.prog[s.pc.toNat]? = some b0) (hL : tableLength b0 = none) :
      step s = .next (takeCondition .code s) :=
    (step_of_running hr).1 .code (fetchDecode_eq_code_iff.2 ⟨b0, hb, hL⟩)
  refine ⟨⟨?_, ?_⟩, fun b0 hb hL => hstep hb hL⟩
  · rintro ⟨t, h, hf⟩
    obtain ⟨-, hcode, -⟩ | ⟨hne, -⟩ := failing_step_cases h hf
    · exact fetchDecode_eq_code_iff.1 hcode
    · exact absurd rfl hne
  · rintro ⟨b0, hb, hL⟩
    exact ⟨_, hstep hb hL, rfl⟩

/-- Settles O9: the truncated instruction stops in the decoder, the other in the loop test. -/
theorem truncatedOrPastTheEndEndsRun : Obligations.TruncatedOrPastTheEndEndsRun := by
  intro s hr hend
  refine ⟨?_, rfl⟩
  obtain ⟨b0, L, hb, hL, hshort⟩ | hpast := hend
  · rw [← map_length_formatOf] at hL
    obtain ⟨f, hf, rfl⟩ := Option.map_eq_some_iff.1 hL
    exact step_of_truncated hr hb hf hshort
  · exact step_of_pc_ge hr hpast

/-- Settles O10: a condition and an executed instruction both answer a next state. -/
theorem runningMachineAlwaysSteps : Obligations.RunningMachineAlwaysSteps :=
  fun _ hr => exists_step_of_running hr

/-- Settles O27: Code comes before any advance of `pc`, every other failure from the decoded instruction. -/
theorem failingStepLeavesNoTraceButPc : Obligations.FailingStepLeavesNoTraceButPc := by
  intro s t f h hf
  obtain ⟨rfl, -, rfl⟩ | ⟨hne, i, n, hd, rfl⟩ := failing_step_cases h hf
  · refine ⟨0, ?_, fun _ => rfl, fun hne => absurd rfl hne⟩
    rw [BitVec.add_zero]
    rfl
  · exact ⟨n, rfl, fun hcode => absurd hcode hne, fun _ => ⟨i, hd⟩⟩

/-- Settles O12: `takeCondition` is one write of the run state, whose value R91's table gives. -/
theorem takingAConditionWritesRunStateOnly : Obligations.TakingAConditionWritesRunStateOnly := by
  intro s
  refine ⟨rfl, rfl, rfl, rfl, rfl, rfl, fun k => ?_⟩
  cases k <;> rfl

-- Runs.

theorem runFor_succ_of_step {s t : State} (h : step s = .next t) (n : Nat) : runFor (n + 1) s = runFor n t := by
  simp [runFor, h]

/-- A run that has ended stays where it is (R101). -/
theorem runFor_of_ended {s : State} (h : s.ended) (n : Nat) : runFor n s = s := by
  cases n with
  | zero => rfl
  | succ n => simp [runFor, step_of_ended h]

/-- A machine that steps to itself runs in place. -/
theorem runFor_of_step_self {s : State} (h : step s = .next s) (n : Nat) : runFor n s = s := by
  induction n with
  | zero => rfl
  | succ n ih => rw [runFor_succ_of_step h, ih]

/-- Settles O11: a run asks for a step, finds none, and stays. -/
theorem endedMachineIsAbsorbing : Obligations.EndedMachineIsAbsorbing :=
  fun _ h => ⟨step_of_ended h, runFor_of_ended h⟩

/-- Settles O38: `jmp` undoes the decoder's advance of `pc`, so the step is the identity. -/
theorem jmpToItselfNeverEnds : Obligations.JmpToItselfNeverEnds := by
  intro s t0 t1 t2 t3 t4 t5 t6 t7 hb htarget
  have hstep : step s = .next s :=
    calc step s = exec (.jmp s.pc) (s.setPc (s.pc + 9)) := by rw [hb.step_f9 (mk := .jmp) rfl, htarget]
      _ = .next s := exec_jmp s.pc (s.setPc (s.pc + 9))
  refine ⟨hstep, fun n => ?_⟩
  rw [runFor_of_step_self hstep]
  exact ⟨rfl, hb.1⟩

/-- A step that goes on and decodes no `jmp` moves `pc` up: past an instruction of at least one byte that lies in a
stream too short for the sum to wrap (R17, R65). -/
theorem pc_lt_of_step {s t : State} (h : step s = .next t) (ht : t.runState = .running) (hlen : s.prog.length < 2 ^ 64)
    (hjmp : ¬ DecodesJmp s) : s.pc.toNat < t.pc.toNat := by
  obtain ⟨hr, ⟨k, -, rfl⟩ | ⟨i, n, hpc, hd, hex⟩⟩ := step_cases h
  · exact absurd ht k.runState_ne_running
  · have hi : ∀ dest, i ≠ .jmp dest := by
      rintro dest rfl
      exact hjmp ⟨hr, dest, n, hd⟩
    have hadvance : t.pc = s.pc + BitVec.ofNat 64 n := exec_pc_of_ne_jmp hex hi
    obtain ⟨hpos, -, hfits⟩ := decode_length_bounds hd
    have hroom : s.pc.toNat + n ≤ s.prog.length := by
      rw [stream, List.length_drop] at hfits
      omega
    rw [hadvance, BitVec.toNat_add, BitVec.toNat_ofNat]
    omega

/-- A machine with at most `m` bytes from `pc` to the end of its stream, and no `jmp` decoded, is past the end after `m`
steps or has ended, and has ended after one more (R107). -/
theorem run_ends_of_no_jmp {m : Nat} {s : State} (hlen : s.prog.length < 2 ^ 64)
    (hleft : s.prog.length ≤ s.pc.toNat + m) (hjmp : ∀ k < m, ¬ DecodesJmp (runFor k s)) :
    ((runFor m s).runState = .running → s.prog.length ≤ (runFor m s).pc.toNat) ∧ (runFor (m + 1) s).ended := by
  by_cases hr : s.runState = .running
  case neg =>
    rw [runFor_of_ended hr, runFor_of_ended hr]
    exact ⟨fun h => absurd h hr, hr⟩
  induction m generalizing s with
  | zero =>
    refine ⟨fun _ => hleft, ?_⟩
    rw [runFor_succ_of_step (step_of_pc_ge hr hleft)]
    exact Condition.runState_ne_running .endOfInput
  | succ m ih =>
    obtain ⟨t, ht⟩ := exists_step_of_running hr
    rw [runFor_succ_of_step ht, runFor_succ_of_step ht]
    by_cases htr : t.runState = .running
    · have hup : s.pc.toNat < t.pc.toNat := pc_lt_of_step ht htr hlen (hjmp 0 m.succ_pos)
      have hprog : t.prog = s.prog := (stepKeepsParametersAndCursor s t ht).1
      have hjmp' : ∀ k < m, ¬ DecodesJmp (runFor k t) := fun k hk =>
        runFor_succ_of_step ht k ▸ hjmp (k + 1) (Nat.succ_lt_succ hk)
      have hleft' : s.prog.length ≤ t.pc.toNat + m := by omega
      rw [← hprog] at hlen hleft' ⊢
      exact ih hlen hleft' hjmp' htr
    · rw [runFor_of_ended htr, runFor_of_ended htr]
      exact ⟨fun h => absurd h htr, htr⟩

/-- Settles O37: at most PROG_LEN bytes lie between `pc` and the end of the stream. -/
theorem runWithoutJmpEnds : Obligations.RunWithoutJmpEnds :=
  fun s hlen hjmp => run_ends_of_no_jmp hlen (Nat.le_add_left s.prog.length s.pc.toNat) fun k hk => hjmp k hk.le

end Machine

end Sys2Proof
end

section
/-! The ways a run ends (spec/70_reset_and_hazards.md): a step that ends a run takes a condition, raised either by the loop
test and the decode, before `pc` moves, or by the decoded instruction, after it. -/

namespace Sys2Proof

/-- `halt` is one byte (R54). -/
theorem length_of_decode_halt {bs : List Byte} {n : Nat} (h : decode bs = .ok (.halt, n)) : n = 1 := by
  obtain ⟨-, hlen, -⟩ := decodedBytesReencode bs .halt n h
  exact hlen.symm

namespace Machine

/-- What the stream holds at `pc` when the loop test or the decode raises a condition (R53, R90). -/
theorem stream_of_fetchDecode_error {s : State} {k : Condition} (h : fetchDecode s = .error k) :
    (k = .endOfInput ∧ (s.prog.length ≤ s.pc.toNat ∨ decode (stream s) = .error .endOfInput)) ∨
      (k = .code ∧ decode (stream s) = .error .code) := by
  obtain ⟨hpast, rfl⟩ | ⟨-, e, hd, rfl⟩ := fetchDecode_eq_error_iff.1 h
  · exact .inl ⟨rfl, .inl hpast⟩
  · cases e with
    | code => exact .inr ⟨rfl, hd⟩
    | endOfInput => exact .inl ⟨rfl, .inr hd⟩

/-- The executor's conditions are Halt, of `halt`, and the failures other than Code (R91). -/
theorem MayRaise.halt_or_failed {i : Instr} {k : Condition} (h : MayRaise i k) :
    (i = .halt ∧ k = .halt) ∨ ∃ f, f ≠ .code ∧ k.runState = .failed f := by
  cases h with
  | halt => exact .inl ⟨rfl, rfl⟩
  | register => exact .inr ⟨.register, nofun, rfl⟩
  | memory => exact .inr ⟨.memory, nofun, rfl⟩
  | unimplemented => exact .inr ⟨.unimplemented, nofun, rfl⟩

/-- An instruction that ends the run does so by a condition it may raise (R91). -/
theorem exists_mayRaise_of_exec_ended {i : Instr} {s t : State} (h : exec i s = .next t) (hs : s.runState = .running)
    (ht : t.ended) : ∃ k, MayRaise i k ∧ t = takeCondition k s := by
  obtain ⟨u, hu, heffect⟩ := exec_keepsRunStateOrRaises i s
  obtain rfl : u = t := Host.Outcome.next.inj (hu.symm.trans h)
  obtain hkept | hraised := heffect
  · exact absurd (hkept.trans hs) ht
  · exact hraised

/-- `jmp` raises no condition, so it ends no run (R83). -/
theorem ne_jmp_of_exec_ended {i : Instr} {s t : State} (h : exec i s = .next t) (hs : s.runState = .running)
    (ht : t.ended) (dest : Word) : i ≠ .jmp dest := by
  rintro rfl
  obtain rfl := Host.Outcome.next.inj ((exec_jmp dest s).symm.trans h)
  exact ht hs

/-- Settles O30: by where the condition comes from, and for a decoded instruction by which condition it raised. -/
theorem waysARunEnds : Obligations.WaysARunEnds := by
  intro s t h ht
  obtain ⟨hr, ⟨k, hk, rfl⟩ | ⟨i, n, -, hd, hex⟩⟩ := step_cases h
  · obtain ⟨rfl, hend⟩ | ⟨rfl, hcode⟩ := stream_of_fetchDecode_error hk
    · exact .inr (.inl ⟨rfl, rfl, hend⟩)
    · exact .inr (.inr (.inl ⟨rfl, rfl, hcode⟩))
  · have hjmp := ne_jmp_of_exec_ended hex hr ht
    obtain ⟨k, hraise, rfl⟩ := exists_mayRaise_of_exec_ended hex hr ht
    obtain ⟨rfl, rfl⟩ | ⟨f, hne, hf⟩ := hraise.halt_or_failed
    · obtain rfl := length_of_decode_halt hd
      exact .inl ⟨rfl, hd, rfl⟩
    · exact .inr (.inr (.inr ⟨f, i, n, hf, hne, hd, hjmp, rfl⟩))

end Machine

end Sys2Proof
end
